-- ==== Sys2Proof/Word.lean ====
section
/-! DEFINITION. Sys2Proof/Word.lean: the two bit-vector types of the block (spec/00_scope.md §4): a word is an
unsigned 32-bit value, a byte an unsigned 8-bit value. Nothing in the block is signed. -/

namespace Sys2Proof

/-- A word: an unsigned 32-bit value (spec/00_scope.md §4). -/
abbrev Word := BitVec 32

/-- A byte: an unsigned 8-bit value (spec/00_scope.md §4). -/
abbrev Byte := BitVec 8

end Sys2Proof
end

