-- ==== Sys2Proof/Syntax.lean ====
section
/-! DEFINITION. Sys2Proof/Syntax.lean: the commands of the block, one constructor per row of spec/opcode_table.json
(rule R57). A command carries what CMD and LEN encode (R52 to R55, R61): lane indexes, offsets and byte counts, all
unsigned and never scaled, so they are natural numbers here and their field widths are checked in WellFormed.lean. The
input bytes DIN are no part of the command: they are the third item of a transaction (R50). -/

namespace Sys2Proof

/-- A command. The docstring of each constructor names its row of the opcode table. -/
inductive Instr where
  /-- RD_STATUS, 0x01, format N (R170). -/
  | rdStatus
  /-- RD_CONFIG, 0x02, format N (R171). -/
  | rdConfig
  /-- E.PERMUTE, 0x10, format N (R91). -/
  | ePermute
  /-- E.ADD, 0x11, format B (R100): lane index, byte offset, byte count LEN. -/
  | eAdd (lane off len : Nat)
  /-- E.EXTRACT, 0x12, format B with OFF reserved (R101): lane index, byte count LEN. -/
  | eExtract (lane len : Nat)
  /-- E.ZEROIZE, 0x13, format N (R102). -/
  | eZeroize
  /-- S.HASH, 0x20, format N (R140). -/
  | sHash
  /-- S.KEYED, 0x21, format K (R55, R141): the lengths of key, key id and nonce, and the counter: `none` is CTRP = 0,
  `some n` is CTRP = 1 with LEN = n. An empty counter is not an absent one (D37). -/
  | sKeyed (klen idlen nlen : Nat) (ctr : Option Nat)
  /-- S.ABSORB, 0x22, format L (R142): byte count LEN. -/
  | sAbsorb (len : Nat)
  /-- S.ABSORB_MORE, 0x23, format L (R143): byte count LEN. -/
  | sAbsorbMore (len : Nat)
  /-- S.SQUEEZE, 0x24, format L (R144): byte count LEN. -/
  | sSqueeze (len : Nat)
  /-- S.SQUEEZE_MORE, 0x25, format L (R145): byte count LEN. -/
  | sSqueezeMore (len : Nat)
  /-- S.SQUEEZE_KEY, 0x26, format L (R146): byte count LEN. -/
  | sSqueezeKey (len : Nat)
  /-- S.RATCHET, 0x27, format N (R147). -/
  | sRatchet
  /-- S.ENCRYPT, 0x28, format L (R148): byte count LEN. -/
  | sEncrypt (len : Nat)
  /-- S.DECRYPT, 0x29, format L (R149): byte count LEN. -/
  | sDecrypt (len : Nat)
  /-- S.RELEASE, 0x2F, format N (R150). -/
  | sRelease
deriving DecidableEq, Repr

end Sys2Proof
end

