-- ==== Sys2Proof/WellFormed.lean ====
section
/-! DEFINITION. Sys2Proof/WellFormed.lean: which commands an encoding can hold. Each operand fits its field (R53 to
R56); nothing else is asked, because every other condition (a lane past N, an offset past 48, an IV past 44 bytes) is a
legal encoding that faults when it runs (R61, R181). -/

namespace Sys2Proof

/-- `n` fits an unsigned field of `width` bits. -/
def fits (width n : Nat) : Bool := n < 2 ^ width

/-- The command has an encoding: LANE is 8 bits (R53), OFF 6 bits (R53), KLEN, IDLEN and NLEN 6 bits each (R55), LEN 32
bits (R56). -/
def Instr.wellFormed : Instr → Bool
  | .rdStatus | .rdConfig | .ePermute | .eZeroize | .sHash | .sRatchet | .sRelease => true
  | .eAdd lane off len => fits 8 lane && fits 6 off && fits 32 len
  | .eExtract lane len => fits 8 lane && fits 32 len
  | .sKeyed klen idlen nlen ctr => fits 6 klen && fits 6 idlen && fits 6 nlen && fits 32 (ctr.getD 0)
  | .sAbsorb len | .sAbsorbMore len | .sSqueeze len | .sSqueezeMore len | .sSqueezeKey len
  | .sEncrypt len | .sDecrypt len => fits 32 len

end Sys2Proof
end

