-- ==== Sys2Proof/Decode.lean ====
section
/-! DEFINITION. Sys2Proof/Decode.lean: from the two words of a transaction, CMD and LEN, to a command or a rejection by
name (R51 to R63), the opcode table itself, the encoder, and the byte order of words on a byte transport (R66).

Decoding makes the first two checks of R181, in their order: the opcode, then the reserved fields of its format. It reads
nothing but CMD and LEN (R63). The byte form of the answer, DOUT and RESP, stands beside that of the request. -/

namespace Sys2Proof

/-! ### Byte order (R66) -/

/-- Byte `j` of a word, byte 0 the least significant (R31, R66). -/
def wordByte (w : Word) (j : Nat) : Byte := w.extractLsb' (8 * j) 8

/-- The word whose bytes, least significant first, are `b0 b1 b2 b3` (R33, R66). -/
def wordOfBytes (b0 b1 b2 b3 : Byte) : Word := b3 ++ b2 ++ b1 ++ b0

/-- A word as four bytes, least significant first (R66). -/
def wordBytes (w : Word) : List Byte := [wordByte w 0, wordByte w 1, wordByte w 2, wordByte w 3]

/-! ### Fields and formats -/

/-- `CMD[lo+n-1 : lo]` as an unsigned number (R61). -/
def field (w : Word) (lo n : Nat) : Nat := (w.extractLsb' lo n).toNat

/-- Why CMD and LEN are no command: the opcode (R57, R62), or a reserved field that is not 0 (R51, R62). -/
inductive Reject where
  | illegalOpcode
  | reservedNonzero
deriving DecidableEq, Repr

/-- `i`, unless a field the format reserves is not zero (R51, R62). -/
def unlessReserved (reservedIsZero : Bool) (i : Instr) : Except Reject Instr :=
  if reservedIsZero then .ok i else .error .reservedNonzero

/-- Format N (R52): CMD[31:8] and LEN are reserved. -/
def decodeN (i : Instr) (cmd len : Word) : Except Reject Instr :=
  unlessReserved (field cmd 8 24 == 0 && len == 0) i

/-- Format L (R54): CMD[31:8] is reserved; LEN is the byte count. -/
def decodeL (mk : Nat → Instr) (cmd len : Word) : Except Reject Instr :=
  unlessReserved (field cmd 8 24 == 0) (mk len.toNat)

/-- Format B (R53) as E.ADD uses it: CMD[31:22] is reserved. -/
def decodeEAdd (cmd len : Word) : Except Reject Instr :=
  unlessReserved (field cmd 22 10 == 0) (.eAdd (field cmd 8 8) (field cmd 16 6) len.toNat)

/-- Format B (R53) as E.EXTRACT uses it: OFF is reserved too, so CMD[31:16] is. -/
def decodeEExtract (cmd len : Word) : Except Reject Instr :=
  unlessReserved (field cmd 16 16 == 0) (.eExtract (field cmd 8 8) len.toNat)

/-- Format K (R55): CMD[31:27] is reserved, and LEN too when CTRP = CMD[26] is 0. -/
def decodeSKeyed (cmd len : Word) : Except Reject Instr :=
  let ctrp := field cmd 26 1 == 1
  unlessReserved (field cmd 27 5 == 0 && (ctrp || len == 0))
    (.sKeyed (field cmd 8 6) (field cmd 14 6) (field cmd 20 6) (if ctrp then some len.toNat else none))

/-- The decoder (R51, R57, R62): the opcode CMD[7:0] selects the format, every other opcode is illegal. -/
def decode (cmd len : Word) : Except Reject Instr :=
  match cmd.extractLsb' 0 8 with
  | 0x01#8 => decodeN .rdStatus cmd len
  | 0x02#8 => decodeN .rdConfig cmd len
  | 0x10#8 => decodeN .ePermute cmd len
  | 0x11#8 => decodeEAdd cmd len
  | 0x12#8 => decodeEExtract cmd len
  | 0x13#8 => decodeN .eZeroize cmd len
  | 0x20#8 => decodeN .sHash cmd len
  | 0x21#8 => decodeSKeyed cmd len
  | 0x22#8 => decodeL .sAbsorb cmd len
  | 0x23#8 => decodeL .sAbsorbMore cmd len
  | 0x24#8 => decodeL .sSqueeze cmd len
  | 0x25#8 => decodeL .sSqueezeMore cmd len
  | 0x26#8 => decodeL .sSqueezeKey cmd len
  | 0x27#8 => decodeN .sRatchet cmd len
  | 0x28#8 => decodeL .sEncrypt cmd len
  | 0x29#8 => decodeL .sDecrypt cmd len
  | 0x2F#8 => decodeN .sRelease cmd len
  | _ => .error .illegalOpcode

/-! ### The byte transport (R66) -/

/-- A transaction on a byte transport: CMD, then LEN, each least significant byte first, then DIN, byte 0 first (R66).
That CMD comes before LEN is R50's order of the tuple (DEDUCED, log entry 6). -/
def transportBytes (cmd len : Word) (din : List Byte) : List Byte := wordBytes cmd ++ wordBytes len ++ din

/-- Why a byte stream holds no command: its CMD and LEN are rejected, or fewer than eight bytes hold no CMD and LEN (the
transport's matter, not the block's, which has no such cause: log entry 6). -/
inductive StreamReject where
  | rejected (e : Reject)
  | truncated
deriving DecidableEq, Repr

/-- Reads a command off a byte stream, total on any bytes: the command and the bytes after CMD and LEN, or a rejection by
name. -/
def decodeBytes : List Byte → Except StreamReject (Instr × List Byte)
  | a0 :: a1 :: a2 :: a3 :: b0 :: b1 :: b2 :: b3 :: rest =>
    match decode (wordOfBytes a0 a1 a2 a3) (wordOfBytes b0 b1 b2 b3) with
    | .ok i => .ok (i, rest)
    | .error e => .error (.rejected e)
  | _ => .error .truncated

/-- An answer on a byte transport: DOUT, byte 0 first, then RESP, least significant byte first (R35, R66). That DOUT comes
before RESP is R50's order of the pair (DEDUCED, log entry 6). -/
def responseBytes (dout : List Byte) (resp : Word) : List Byte := dout ++ wordBytes resp

/-- Reads an answer off a transport, as the host does: RESP is the last four bytes, DOUT all before them. Fewer than four
bytes are no answer. -/
def readResponse (bs : List Byte) : Option (List Byte × Word) :=
  match bs.drop (bs.length - 4) with
  | [b0, b1, b2, b3] => some (bs.take (bs.length - 4), wordOfBytes b0 b1 b2 b3)
  | _ => none

/-- The command the decoder reads from `w`, numbered as spec/opcode_table.json numbers it: CMD is bits 31..0, LEN bits
63..32; bits from `nbits` up are 0. The words are laid out as a transport carries them and given to the decoder. -/
def decodeTableWord (nbits w : Nat) : Option Instr :=
  let v := w % 2 ^ nbits
  match decodeBytes (transportBytes (BitVec.ofNat 32 v) (BitVec.ofNat 32 (v / 2 ^ 32)) []) with
  | .ok (i, _) => some i
  | .error _ => none

/-! ### The encoder (R52 to R57, R65)

An operand that does not fit its field keeps its low bits: DESIGN CHOICE, log entry 19. -/

/-- CMD of formats N and L: the opcode, every other bit 0 (R52, R54). -/
def cmdPlain (opc : Byte) : Word := 0#24 ++ opc

/-- CMD of format B (R53): reserved, OFF, LANE, OPC. -/
def cmdB (opc : Byte) (lane off : Nat) : Word := 0#10 ++ BitVec.ofNat 6 off ++ BitVec.ofNat 8 lane ++ opc

/-- CMD of format K (R55): reserved, CTRP, NLEN, IDLEN, KLEN, OPC. -/
def cmdK (opc : Byte) (klen idlen nlen : Nat) (ctrp : Bool) : Word :=
  0#5 ++ BitVec.ofBool ctrp ++ BitVec.ofNat 6 nlen ++ BitVec.ofNat 6 idlen ++ BitVec.ofNat 6 klen ++ opc

/-- The words (CMD, LEN) of a command (R65). R65 names no outcome for a command that is not well-formed; here an operand too
large for its field keeps only its low bits (DESIGN CHOICE, log entry 19), so those words stand for another command. -/
def encode : Instr → Word × Word
  | .rdStatus => (cmdPlain 0x01, 0)
  | .rdConfig => (cmdPlain 0x02, 0)
  | .ePermute => (cmdPlain 0x10, 0)
  | .eAdd lane off len => (cmdB 0x11 lane off, BitVec.ofNat 32 len)
  | .eExtract lane len => (cmdB 0x12 lane 0, BitVec.ofNat 32 len)
  | .eZeroize => (cmdPlain 0x13, 0)
  | .sHash => (cmdPlain 0x20, 0)
  | .sKeyed klen idlen nlen ctr => (cmdK 0x21 klen idlen nlen ctr.isSome, BitVec.ofNat 32 (ctr.getD 0))
  | .sAbsorb len => (cmdPlain 0x22, BitVec.ofNat 32 len)
  | .sAbsorbMore len => (cmdPlain 0x23, BitVec.ofNat 32 len)
  | .sSqueeze len => (cmdPlain 0x24, BitVec.ofNat 32 len)
  | .sSqueezeMore len => (cmdPlain 0x25, BitVec.ofNat 32 len)
  | .sSqueezeKey len => (cmdPlain 0x26, BitVec.ofNat 32 len)
  | .sRatchet => (cmdPlain 0x27, 0)
  | .sEncrypt len => (cmdPlain 0x28, BitVec.ofNat 32 len)
  | .sDecrypt len => (cmdPlain 0x29, BitVec.ofNat 32 len)
  | .sRelease => (cmdPlain 0x2F, 0)

/-! ### The opcode table (spec/opcode_table.json) -/

/-- A row of spec/opcode_table.json: its mnemonic, and the CMD bits it fixes. -/
structure TableRow where
  mnemonic : String
  value : Word
  mask : Word
deriving DecidableEq, Repr

/-- The table, row for row. -/
def opcodeTable : List TableRow :=
  [ ⟨"RD_STATUS", 0x00000001, 0xFFFFFFFF⟩, ⟨"RD_CONFIG", 0x00000002, 0xFFFFFFFF⟩,
    ⟨"E.PERMUTE", 0x00000010, 0xFFFFFFFF⟩, ⟨"E.ADD", 0x00000011, 0xFFC000FF⟩,
    ⟨"E.EXTRACT", 0x00000012, 0xFFFF00FF⟩, ⟨"E.ZEROIZE", 0x00000013, 0xFFFFFFFF⟩,
    ⟨"S.HASH", 0x00000020, 0xFFFFFFFF⟩, ⟨"S.KEYED", 0x00000021, 0xF80000FF⟩,
    ⟨"S.ABSORB", 0x00000022, 0xFFFFFFFF⟩, ⟨"S.ABSORB_MORE", 0x00000023, 0xFFFFFFFF⟩ ] ++
  [ ⟨"S.SQUEEZE", 0x00000024, 0xFFFFFFFF⟩, ⟨"S.SQUEEZE_MORE", 0x00000025, 0xFFFFFFFF⟩,
    ⟨"S.SQUEEZE_KEY", 0x00000026, 0xFFFFFFFF⟩, ⟨"S.RATCHET", 0x00000027, 0xFFFFFFFF⟩,
    ⟨"S.ENCRYPT", 0x00000028, 0xFFFFFFFF⟩, ⟨"S.DECRYPT", 0x00000029, 0xFFFFFFFF⟩,
    ⟨"S.RELEASE", 0x0000002F, 0xFFFFFFFF⟩ ]

/-- The mnemonic of a command's row. -/
def Instr.mnemonic : Instr → String
  | .rdStatus => "RD_STATUS"
  | .rdConfig => "RD_CONFIG"
  | .ePermute => "E.PERMUTE"
  | .eAdd _ _ _ => "E.ADD"
  | .eExtract _ _ => "E.EXTRACT"
  | .eZeroize => "E.ZEROIZE"
  | .sHash => "S.HASH"
  | .sKeyed _ _ _ _ => "S.KEYED"
  | .sAbsorb _ => "S.ABSORB"
  | .sAbsorbMore _ => "S.ABSORB_MORE"
  | .sSqueeze _ => "S.SQUEEZE"
  | .sSqueezeMore _ => "S.SQUEEZE_MORE"
  | .sSqueezeKey _ => "S.SQUEEZE_KEY"
  | .sRatchet => "S.RATCHET"
  | .sEncrypt _ => "S.ENCRYPT"
  | .sDecrypt _ => "S.DECRYPT"
  | .sRelease => "S.RELEASE"

end Sys2Proof
end

