-- ==== Sys2Proof/Config.lean ====
section
/-! DEFINITION. Sys2Proof/Config.lean: what is fixed when a block is built (rules R5, R6, R20) and the one value the
spec leaves open, the latency (R206, R207, D38).

N (lanes) and R (rounds) are parameters of the block, not constants of the spec. The step has a fixed type, so a State
carries them: N is the length of its lane file, R its field `rounds`. Nothing changes them. Every claim is therefore a
claim about every N and R. The two numbers below only say which built block `State.reset` is. -/

namespace Sys2Proof.Config

/-- N of the block that `State.reset` describes: the scalar engine (R5). DESIGN CHOICE, log entry 1: the spec leaves N
to the builder. -/
def defaultLanes : Nat := 1

/-- R of the block that `State.reset` describes (R6). DESIGN CHOICE, log entry 1: the spec leaves R to the builder. -/
def defaultRounds : Nat := 12

/-- R5: the legal lane counts of a built block. -/
abbrev LegalLanes (n : Nat) : Prop := 1 ≤ n ∧ n ≤ 255

/-- R6: the legal round counts of a built block. -/
abbrev LegalRounds (r : Nat) : Prop := 1 ≤ r ∧ r ≤ 12

/-- D38, R206, R207: the OPEN parameter LATENCY(OPC, LEN, SMODE, SPHASE, N, R), in cycles. It has no body: nothing can be
proved of its value. No rule reads it, and the model has no time (log entry 9). -/
opaque latency (opc len smode sphase lanes rounds : Nat) : Nat

end Sys2Proof.Config
end

