-- ==== Sys2Proof/Machine/State.lean ====
section
/-! DEFINITION. Sys2Proof/Machine/State.lean: the state of the block as plain data (spec/10_state.md), the model's own
view of the command port, and the state after reset (R22, R200).

The block has no program counter, no general registers and no memory map (R19, R42). Its byte-addressable storage is the
byte view of its 12-word states (R30, R36): the words are stored, the bytes are computed (Machine/Ops.lean, R103). -/

namespace Sys2Proof.Machine

/-- A plane: four words, word index x = 0..3 (R11). -/
structure Plane where
  x0 : Word
  x1 : Word
  x2 : Word
  x3 : Word
deriving DecidableEq, Repr

/-- A 12-word state, 48 bytes: planes A, B and C (R10, R11). A lane and the sponge state are both one. -/
structure Lane where
  a : Plane
  b : Plane
  c : Plane
deriving DecidableEq, Repr

/-- The plane of four zero words. -/
def Plane.zero : Plane := ⟨0, 0, 0, 0⟩

/-- The 12-word state of zero words (R22). -/
def Lane.zero : Lane := ⟨Plane.zero, Plane.zero, Plane.zero⟩

/-- SMODE (R13): NONE, HASH or KEYED. The fourth code of the 2-bit field is never held. -/
inductive SMode where
  | none
  | hash
  | keyed
deriving DecidableEq, Repr

/-- SPHASE (R14): whether the last sponge primitive was `up` or `down`. -/
inductive SPhase where
  | up
  | down
deriving DecidableEq, Repr

/-- CAUSE (R16, R180): the ten cause codes, `none` the reset value. Codes 10 to 15 are never produced. -/
inductive Cause where
  | none
  | illegalOpcode
  | reservedNonzero
  | dinLength
  | laneRange
  | addBounds
  | extractBounds
  | spongeUninit
  | keyedOnly
  | ivTooLong
deriving DecidableEq, Repr

/-- Bytes of the keystream block K: one encrypt or decrypt block (R7, R148). -/
def kBufBytes : Nat := 24

/-- Bytes of the ratchet block T (R147). -/
def tBufBytes : Nat := 16

/-- The sponge sequencer's state (R12 to R14), with its two internal buffers. -/
structure Sequencer where
  /-- SST[0..11], private (R12). -/
  sst : Lane
  /-- SMODE (R13, R15). -/
  smode : SMode
  /-- SPHASE (R14). -/
  sphase : SPhase
  /-- K, the keystream block (spec/43_sponge_commands.md, R203): zero-filled before a command completes. Not
  architectural, no command can observe it. Its size is a DESIGN CHOICE (log entry 7). -/
  kbuf : List Byte
  /-- T, the ratchet's squeezed block (R147, R203): zero-filled before a command completes. As K. -/
  tbuf : List Byte
  /-- The model's own count of 12-round permutations since reset (R155 counts them per command). Nothing reads it and
  the host cannot see it (DESIGN CHOICE, log entry 8). -/
  perms : Nat
deriving DecidableEq, Repr

/-- One transaction as the host sends it (R50). -/
structure Transaction where
  cmd : Word
  len : Word
  din : List Byte
deriving DecidableEq, Repr

/-- What the host can do to the block (R68): issue a transaction, or assert reset between transactions. -/
inductive HostAction where
  | issue (t : Transaction)
  | reset
deriving DecidableEq, Repr

/-- The state of the block and of its command port. -/
structure State where
  /-- LANE[0..N-1] (R10). N is this list's length (R5). -/
  lanes : List Lane
  /-- R, the engine's round count, fixed when the block is built (R6, R20): no command writes it. -/
  rounds : Nat
  /-- The sequencer (R12 to R14). -/
  seq : Sequencer
  /-- FAULT (R16). -/
  fault : Bool
  /-- CAUSE (R16). -/
  cause : Cause
  /-- What the host is going to do, oldest first: the environment's input, not storage of the block (log entry 2). -/
  pending : List HostAction
  /-- DIN of the transaction being performed, empty between transactions (R50, log entry 5). -/
  din : List Byte
  /-- DOUT of the last transaction (R59, log entry 3). -/
  dout : List Byte
  /-- RESP of the last transaction (R60, log entry 3). -/
  resp : Word
deriving DecidableEq, Repr

/-- The reasons a step could stop with a fault: none. Every fault of the spec is a state of the block (FAULT and CAUSE,
R182), after which it still answers, and the step is total (R67); no behaviour is stuck (spec/93, end of Part 1). Safe:
with no constructor, nothing can raise it (log entry 12). -/
inductive Fault
deriving DecidableEq, Repr

/-- The reasons the model could have no meaning for a command. -/
inductive Refusal where
  /-- Raised only by an arm of `exec` whose instruction has no meaning yet. Safe: nothing is claimed of it. No arm
  raises it. -/
  | notModelled (mnemonic : String)
deriving DecidableEq, Repr

/-- The outcome of a step of this machine. -/
abbrev Outcome := Host.Outcome State Fault Refusal

/-- N (R5). -/
def State.nLanes (s : State) : Nat := s.lanes.length

/-- The sequencer after reset (R22): SST zero, NONE, UP; the buffers hold zero (log entry 7). -/
def Sequencer.reset : Sequencer where
  sst := Lane.zero
  smode := .none
  sphase := .up
  kbuf := List.replicate kBufBytes 0
  tbuf := List.replicate tBufBytes 0
  perms := 0

/-- A block of `n` lanes and `r` rounds right after reset (R22, R200). The port holds no request and no response. -/
def State.afterReset (n r : Nat) : State where
  lanes := List.replicate n Lane.zero
  rounds := r
  seq := Sequencer.reset
  fault := false
  cause := .none
  pending := []
  din := []
  dout := []
  resp := 0

/-- The machine right after reset: a block of the default build (log entry 1). -/
def State.reset : State := State.afterReset Config.defaultLanes Config.defaultRounds

end Sys2Proof.Machine
end

