-- ==== Sys2Proof/Machine/Flags.lean ====
section
/-! DEFINITION. Sys2Proof/Machine/Flags.lean: the two registers the host reads, assembled from the state and the build
parameters: STATUS (R17) and CONFIG (R18), with the codes of their fields (R13, R14, R180). Neither is stored. -/

namespace Sys2Proof.Machine

/-- The code of SMODE in STATUS[9:8] (R13). -/
def SMode.code : SMode → Nat
  | .none => 0
  | .hash => 1
  | .keyed => 2

/-- The code of SPHASE in STATUS[10] (R14). -/
def SPhase.code : SPhase → Nat
  | .up => 0
  | .down => 1

/-- The code of CAUSE in STATUS[7:4] (R180). -/
def Cause.code : Cause → Nat
  | .none => 0
  | .illegalOpcode => 1
  | .reservedNonzero => 2
  | .dinLength => 3
  | .laneRange => 4
  | .addBounds => 5
  | .extractBounds => 6
  | .spongeUninit => 7
  | .keyedOnly => 8
  | .ivTooLong => 9

/-- The cause a decoder's rejection raises (R180). -/
def rejectCause : Reject → Cause
  | .illegalOpcode => .illegalOpcode
  | .reservedNonzero => .reservedNonzero

/-- `FAULT | (CAUSE << 4) | (SMODE << 8) | (SPHASE << 10)` (R17). -/
def statusWord (fault : Bool) (cause : Cause) (mode : SMode) (phase : SPhase) : Word :=
  BitVec.ofNat 32 fault.toNat ||| (BitVec.ofNat 32 cause.code <<< 4) ||| (BitVec.ofNat 32 mode.code <<< 8)
    ||| (BitVec.ofNat 32 phase.code <<< 10)

/-- STATUS of a state (R17). -/
def status (s : State) : Word := statusWord s.fault s.cause s.seq.smode s.seq.sphase

/-- `N | (R << 8) | (12 << 12) | (48 << 16) | (1 << 24)` (R18). -/
def configWord (n r : Nat) : Word :=
  BitVec.ofNat 32 n ||| (BitVec.ofNat 32 r <<< 8) ||| (12#32 <<< 12) ||| (48#32 <<< 16) ||| (1#32 <<< 24)

/-- CONFIG of a block (R18). -/
def config (s : State) : Word := configWord s.nLanes s.rounds

end Sys2Proof.Machine
end

