-- ==== Sys2Proof/Machine/Operands.lean ====
section
/-! DEFINITION. Sys2Proof/Machine/Operands.lean: the operands of commands: the lengths of DIN and DOUT (R58, R59), how
DIN is cut (R9, R61, R141), the operand conditions that R181 tests, and bytewise XOR of byte sequences. -/

namespace Sys2Proof.Machine

/-! ### Byte sequences -/

/-- Bytewise XOR of two sequences of one length (spec/00_scope.md §4). -/
def xorSeq (x y : List Byte) : List Byte := List.zipWith (· ^^^ ·) x y

/-- `ceil(n / r)` for r ≥ 1: how many pieces of `r` bytes hold `n` bytes (R9). -/
def pieces (n r : Nat) : Nat := (n + r - 1) / r

/-- `chunks(x, r)`, r ≥ 1 (R9): consecutive pieces of `r` bytes, the last of 1 to r; the empty list for empty `x`. -/
def chunks (x : List Byte) (r : Nat) : List (List Byte) :=
  (List.range (pieces x.length r)).map fun i => (x.drop (i * r)).take r

/-- `[min(r, n - i) for i = 0, r, 2r, … while i < n]`, the chunk sizes of a squeeze (R127, R129). -/
def chunkSizes (n r : Nat) : List Nat :=
  (List.range (pieces n r)).map fun i => min r (n - i * r)

/-- `chunks(x, 24)` with an empty message as one empty block (R148, R149, D13). -/
def cryptBlocks (x : List Byte) : List (List Byte) :=
  match chunks x 24 with
  | [] => [[]]
  | b :: bs => b :: bs

/-- The key of S.KEYED: `DIN[0 .. KLEN)` (R141). -/
def keyOf (klen : Nat) (din : List Byte) : List Byte := din.take klen

/-- The key id of S.KEYED: `DIN[KLEN .. KLEN+IDLEN)` (R141). -/
def keyIdOf (klen idlen : Nat) (din : List Byte) : List Byte := (din.drop klen).take idlen

/-- The nonce of S.KEYED: `DIN[KLEN+IDLEN .. KLEN+IDLEN+NLEN)` (R141). -/
def nonceOf (klen idlen nlen : Nat) (din : List Byte) : List Byte := (din.drop (klen + idlen)).take nlen

/-- The counter of S.KEYED: the rest of DIN (R141). -/
def counterOf (klen idlen nlen : Nat) (din : List Byte) : List Byte := din.drop (klen + idlen + nlen)

/-- The initialisation vector of S.KEYED: key, id, nonce, and the length of id and nonce as one byte (R141). -/
def ivOf (klen idlen nlen : Nat) (din : List Byte) : List Byte :=
  keyOf klen din ++ keyIdOf klen idlen din ++ nonceOf klen idlen nlen din ++ [BitVec.ofNat 8 (idlen + nlen)]

/-! ### Lengths on the port -/

/-- `din_len(CMD, LEN)` (R58). -/
def dinLen : Instr → Nat
  | .rdStatus | .rdConfig | .ePermute | .eExtract _ _ | .eZeroize | .sHash | .sSqueeze _ | .sSqueezeMore _
  | .sSqueezeKey _ | .sRatchet | .sRelease => 0
  | .eAdd _ _ len | .sAbsorb len | .sAbsorbMore len | .sEncrypt len | .sDecrypt len => len
  | .sKeyed klen idlen nlen ctr => klen + idlen + nlen + ctr.getD 0

/-- `dout_len(CMD, LEN)`, the length of DOUT on success (R59). -/
def doutLen : Instr → Nat
  | .rdStatus | .rdConfig => 4
  | .eExtract _ len | .sSqueeze len | .sSqueezeMore len | .sSqueezeKey len | .sEncrypt len | .sDecrypt len => len
  | .ePermute | .eAdd _ _ _ | .eZeroize | .sHash | .sKeyed _ _ _ _ | .sAbsorb _ | .sAbsorbMore _ | .sRatchet
  | .sRelease => 0

/-! ### The operand conditions of R181 -/

/-- RD_STATUS or RD_CONFIG, the two commands that run in the faulted state (R183). -/
def isRegisterRead : Instr → Bool
  | .rdStatus | .rdConfig => true
  | .ePermute | .eAdd _ _ _ | .eExtract _ _ | .eZeroize | .sHash | .sKeyed _ _ _ _ | .sAbsorb _ | .sAbsorbMore _
  | .sSqueeze _ | .sSqueezeMore _ | .sSqueezeKey _ | .sRatchet | .sEncrypt _ | .sDecrypt _ | .sRelease => false

/-- Check 4 of R181: E.ADD or E.EXTRACT with `LANE ≥ n`. -/
def namesLaneFrom (n : Nat) : Instr → Bool
  | .eAdd lane _ _ => n ≤ lane
  | .eExtract lane _ => n ≤ lane
  | .rdStatus | .rdConfig | .ePermute | .eZeroize | .sHash | .sKeyed _ _ _ _ | .sAbsorb _ | .sAbsorbMore _
  | .sSqueeze _ | .sSqueezeMore _ | .sSqueezeKey _ | .sRatchet | .sEncrypt _ | .sDecrypt _ | .sRelease => false

/-- Check 5 of R181 for E.ADD: `OFF + LEN > 48`, the sum without wrap-around. -/
def addPastEnd : Instr → Bool
  | .eAdd _ off len => 48 < off + len
  | .rdStatus | .rdConfig | .ePermute | .eExtract _ _ | .eZeroize | .sHash | .sKeyed _ _ _ _ | .sAbsorb _
  | .sAbsorbMore _ | .sSqueeze _ | .sSqueezeMore _ | .sSqueezeKey _ | .sRatchet | .sEncrypt _ | .sDecrypt _
  | .sRelease => false

/-- Check 5 of R181 for E.EXTRACT: `LEN > 48`. -/
def extractPastEnd : Instr → Bool
  | .eExtract _ len => 48 < len
  | .rdStatus | .rdConfig | .ePermute | .eAdd _ _ _ | .eZeroize | .sHash | .sKeyed _ _ _ _ | .sAbsorb _
  | .sAbsorbMore _ | .sSqueeze _ | .sSqueezeMore _ | .sSqueezeKey _ | .sRatchet | .sEncrypt _ | .sDecrypt _
  | .sRelease => false

/-- Opcodes 0x22 to 0x29, which fault SPONGE_UNINIT in NONE (check 6 of R181, R152). -/
def needsSponge : Instr → Bool
  | .sAbsorb _ | .sAbsorbMore _ | .sSqueeze _ | .sSqueezeMore _ | .sSqueezeKey _ | .sRatchet | .sEncrypt _
  | .sDecrypt _ => true
  | .rdStatus | .rdConfig | .ePermute | .eAdd _ _ _ | .eExtract _ _ | .eZeroize | .sHash | .sKeyed _ _ _ _
  | .sRelease => false

/-- Opcodes 0x26 to 0x29, which fault KEYED_ONLY in HASH (check 7 of R181, R152). -/
def needsKeyed : Instr → Bool
  | .sSqueezeKey _ | .sRatchet | .sEncrypt _ | .sDecrypt _ => true
  | .rdStatus | .rdConfig | .ePermute | .eAdd _ _ _ | .eExtract _ _ | .eZeroize | .sHash | .sKeyed _ _ _ _
  | .sAbsorb _ | .sAbsorbMore _ | .sSqueeze _ | .sSqueezeMore _ | .sRelease => false

/-- Check 8 of R181: S.KEYED with `KLEN + IDLEN + NLEN + 1 > 44`. -/
def ivTooLong : Instr → Bool
  | .sKeyed klen idlen nlen _ => 44 < klen + idlen + nlen + 1
  | .rdStatus | .rdConfig | .ePermute | .eAdd _ _ _ | .eExtract _ _ | .eZeroize | .sHash | .sAbsorb _
  | .sAbsorbMore _ | .sSqueeze _ | .sSqueezeMore _ | .sSqueezeKey _ | .sRatchet | .sEncrypt _ | .sDecrypt _
  | .sRelease => false

end Sys2Proof.Machine
end

