-- ==== Sys2Proof/Machine/Ops.lean ====
section
/-! DEFINITION. Sys2Proof/Machine/Ops.lean: the shared operations: the byte view of a 12-word state and its accesses
(R31 to R34), lane accesses, the response (R59, R60), taking a fault (R182), the refusal (R183), the one frame every
command runs in (R67, R181 to R183), and reset, the only way out of a fault (R184, R200). -/

namespace Sys2Proof.Machine

/-! ### Words and bytes of a 12-word state -/

/-- Word `w` of a 12-word state: plane `w div 4`, index `w mod 4` (R11). Past word 11 there is none (log entry 10). -/
def Lane.word (s : Lane) : Nat → Word
  | 0 => s.a.x0
  | 1 => s.a.x1
  | 2 => s.a.x2
  | 3 => s.a.x3
  | 4 => s.b.x0
  | 5 => s.b.x1
  | 6 => s.b.x2
  | 7 => s.b.x3
  | 8 => s.c.x0
  | 9 => s.c.x1
  | 10 => s.c.x2
  | 11 => s.c.x3
  | _ => 0

/-- The 12-word state with the words `f 0` to `f 11` (R11). -/
def Lane.ofWords (f : Nat → Word) : Lane :=
  ⟨⟨f 0, f 1, f 2, f 3⟩, ⟨f 4, f 5, f 6, f 7⟩, ⟨f 8, f 9, f 10, f 11⟩⟩

/-- `LB(s, k)`, byte `k` of the byte view (R31). -/
def Lane.byte (s : Lane) (k : Nat) : Byte := wordByte (s.word (k / 4)) (k % 4)

/-- The 12-word state with the bytes `f 0` to `f 47`, each word merged from its four bytes (R33). -/
def Lane.ofBytes (f : Nat → Byte) : Lane :=
  Lane.ofWords fun w => wordOfBytes (f (4 * w)) (f (4 * w + 1)) (f (4 * w + 2)) (f (4 * w + 3))

/-- `MemRead((sp, k), n)` of the 12-word state of a space (R32). -/
def memRead (s : Lane) (k n : Nat) : List Byte := (List.range n).map fun i => s.byte (k + i)

/-- `MemWrite((sp, k), len(v), v)` (R33): bytes `k` to `k + len(v) - 1` become `v`, the others keep their values. -/
def memWrite (s : Lane) (k : Nat) (v : List Byte) : Lane :=
  Lane.ofBytes fun m => if k ≤ m ∧ m < k + v.length then v.getD (m - k) 0 else s.byte m

/-- `XorBytes((sp, k), x)` (R34). -/
def xorBytes (s : Lane) (k : Nat) (x : List Byte) : Lane :=
  memWrite s k (xorSeq (memRead s k x.length) x)

/-! ### The lane file -/

/-- Lane `l` (R10). There is no lane past N - 1 (log entry 10). -/
def State.lane (s : State) (l : Nat) : Lane := s.lanes.getD l Lane.zero

/-- Writes lane `l`, and no other (R10). -/
def State.setLane (s : State) (l : Nat) (v : Lane) : State := { s with lanes := s.lanes.set l v }

/-! ### Completion, faults, refusal -/

/-- Ends a transaction: DOUT is `out`, RESP is STATUS as it now stands (R59, R60), and DIN is used up. -/
def respond (out : List Byte) (s : State) : State :=
  { s with din := [], dout := out, resp := status s }

/-- Fault entry (R182): FAULT and CAUSE, nothing else of the block; DOUT empty, RESP the new STATUS. -/
def raiseFault (c : Cause) (s : State) : State := respond [] { s with fault := true, cause := c }

/-- A refused transaction (R183): no state changes; DOUT empty, RESP the unchanged STATUS. -/
def refuse (s : State) : State := respond [] s

/-- The cause of the first condition that holds, NONE if none does (R181). -/
def firstCause : List (Bool × Cause) → Cause
  | [] => .none
  | (holds, c) :: rest => if holds then c else firstCause rest

/-- Checks 3 to 8 of R181, in their order. Checks 1 and 2 read CMD and LEN alone and are the decoder's. -/
def check (i : Instr) (s : State) : Cause :=
  firstCause
    [ (s.din.length != dinLen i, .dinLength),
      (namesLaneFrom s.nLanes i, .laneRange),
      (addPastEnd i, .addBounds),
      (extractPastEnd i, .extractBounds),
      (needsSponge i && s.seq.smode == .none, .spongeUninit),
      (needsKeyed i && s.seq.smode == .hash, .keyedOnly),
      (ivTooLong i, .ivTooLong) ]

/-- Performs a command's effect and answers with its output (R67). -/
def complete (effect : State → State × List Byte) (s : State) : State :=
  respond (effect s).2 (effect s).1

/-- The frame of every command (R67): in the faulted state only a well-formed RD_STATUS or RD_CONFIG runs (R183);
otherwise the first failing check faults (R181, R182), and with none failing the command has its effect. Never stops:
the outcome is always a next state. -/
def runCommand (i : Instr) (effect : State → State × List Byte) (s : State) : Outcome :=
  .next
    (if s.fault then
      (if isRegisterRead i && s.din.isEmpty then complete effect s else refuse s)
    else if check i s = .none then complete effect s
    else raiseFault (check i s) s)

/-- A command whose effect is on the sequencer alone (R12): `f` gives its new state and the output. -/
def runSponge (i : Instr) (f : List Byte → Sequencer → Sequencer × List Byte) (s : State) : Outcome :=
  runCommand i (fun s => ({ s with seq := (f s.din s.seq).1 }, (f s.din s.seq).2)) s

/-- Reset (R200): the only return from the faulted state (R184). Every piece of state takes its value of R22; N and R
stay; the host's later actions are its own. -/
def State.doReset (s : State) : State :=
  { State.afterReset s.nLanes s.rounds with pending := s.pending }

end Sys2Proof.Machine
end

