-- ==== Sys2Proof/Machine/Xoodoo.lean ====
section
/-! DEFINITION. Sys2Proof/Machine/Xoodoo.lean: the round function and the permutation of R rounds (spec/40_permutation.md
R8, R80 to R88). Rule by rule; the constants, the rotation directions and the layout are the spec's own (R80, D5 to D7,
90_conflicts.md C1 to C3). -/

namespace Sys2Proof.Machine

/-- `rotl32(v, r)` for 0 ≤ r < 32 (R8): rotation toward the most significant bit. -/
def rotl32 (v : Word) (r : Nat) : Word := (v <<< r) ||| (v >>> (32 - r))

/-! ### Planes: index arithmetic on x is mod 4 -/

/-- `f` on each word of a plane. -/
def Plane.map (f : Word → Word) (p : Plane) : Plane := ⟨f p.x0, f p.x1, f p.x2, f p.x3⟩

/-- `f` on the words of two planes, index by index. -/
def Plane.zip (f : Word → Word → Word) (p q : Plane) : Plane :=
  ⟨f p.x0 q.x0, f p.x1 q.x1, f p.x2 q.x2, f p.x3 q.x3⟩

/-- XOR of two planes. -/
def Plane.xor (p q : Plane) : Plane := Plane.zip (· ^^^ ·) p q

/-- `~p & q`, word by word (R86). -/
def Plane.notAnd (p q : Plane) : Plane := Plane.zip (fun x y => ~~~x &&& y) p q

/-- The plane whose word x is word x-1 of `p` (R83, R84). -/
def Plane.shift1 (p : Plane) : Plane := ⟨p.x3, p.x0, p.x1, p.x2⟩

/-- The plane whose word x is word x-2 of `p` (R87). -/
def Plane.shift2 (p : Plane) : Plane := ⟨p.x2, p.x3, p.x0, p.x1⟩

/-- Every word rotated by `r` bits (R8). -/
def Plane.rotl (p : Plane) (r : Nat) : Plane := p.map (rotl32 · r)

/-! ### The five steps and the round -/

/-- The column parity P (R83). -/
def parity (s : Lane) : Plane := s.a.xor (s.b.xor s.c)

/-- The mixing value E: `E[x] = rotl32(P[x-1], 5) ^ rotl32(P[x-1], 14)` (R83, C2). -/
def mixing (s : Lane) : Plane := ((parity s).shift1.rotl 5).xor ((parity s).shift1.rotl 14)

/-- Theta (R83). -/
def theta (s : Lane) : Lane := ⟨s.a.xor (mixing s), s.b.xor (mixing s), s.c.xor (mixing s)⟩

/-- Rho-West (R84). -/
def rhoWest (s : Lane) : Lane := ⟨s.a, s.b.shift1, s.c.rotl 11⟩

/-- Iota (R85). -/
def iota (rc : Word) (s : Lane) : Lane := ⟨⟨s.a.x0 ^^^ rc, s.a.x1, s.a.x2, s.a.x3⟩, s.b, s.c⟩

/-- Chi (R86): A, then B from the new A, then C from the new A and B. -/
def chi (s : Lane) : Lane :=
  let a := s.a.xor (s.b.notAnd s.c)
  let b := s.b.xor (s.c.notAnd a)
  let c := s.c.xor (a.notAnd b)
  ⟨a, b, c⟩

/-- Rho-East (R87). -/
def rhoEast (s : Lane) : Lane := ⟨s.a, s.b.rotl 1, s.c.shift2.rotl 8⟩

/-- One round: Theta, Rho-West, Iota, Chi, Rho-East (R82). -/
def xoodooRound (s : Lane) (rc : Word) : Lane := rhoEast (chi (iota rc (rhoWest (theta s))))

/-! ### The permutation -/

/-- The round-constant table RC[0..11] (R80). -/
def roundConstants : List Word :=
  [0x058, 0x038, 0x3C0, 0x0D0, 0x120, 0x014, 0x060, 0x02C, 0x380, 0x0F0, 0x1A0, 0x012]

/-- `RC[k]` (R80). -/
def rc (k : Nat) : Word := roundConstants.getD k 0

/-- The constants of a permutation of `r` rounds in order: round j uses `RC[12 - r + j]` (R81, C1). -/
def schedule (r : Nat) : List Word := (List.range r).map fun j => rc (12 - r + j)

/-- `Xoodoo[r](s)` (R88). -/
def xoodoo (r : Nat) (s : Lane) : Lane := (schedule r).foldl xoodooRound s

end Sys2Proof.Machine
end

