-- ==== Sys2Proof/Machine/Engine.lean ====
section
/-! DEFINITION. Sys2Proof/Machine/Engine.lean: the engine's commands: E.PERMUTE (spec/40_permutation.md R91) and the
byte-access adapter's E.ADD, E.EXTRACT and E.ZEROIZE (spec/41_byte_access.md R100 to R102). -/

namespace Sys2Proof.Machine

/-- E.PERMUTE (R89, R91): `Xoodoo[R]` on every lane, each alone. -/
def execEPermute (s : State) : Outcome :=
  runCommand .ePermute (fun s => ({ s with lanes := s.lanes.map (xoodoo s.rounds) }, [])) s

/-- E.ADD (R100): XORs DIN into lane `lane` from byte `off`. -/
def execEAdd (lane off len : Nat) (s : State) : Outcome :=
  runCommand (.eAdd lane off len) (fun s => (s.setLane lane (xorBytes (s.lane lane) off s.din), [])) s

/-- E.EXTRACT (R101): the first `len` bytes of lane `lane`; no state written. -/
def execEExtract (lane len : Nat) (s : State) : Outcome :=
  runCommand (.eExtract lane len) (fun s => (s, memRead (s.lane lane) 0 len)) s

/-- E.ZEROIZE (R102): every word of every lane becomes 0. -/
def execEZeroize (s : State) : Outcome :=
  runCommand .eZeroize (fun s => ({ s with lanes := s.lanes.map fun _ => Lane.zero }, [])) s

end Sys2Proof.Machine
end

