-- ==== Sys2Proof/Machine/Sponge.lean ====
section
/-! DEFINITION. Sys2Proof/Machine/Sponge.lean: the sequencer's rates, domain bytes, primitives and loops
(spec/42_sponge_primitives.md R120 to R132, R130, R131). None is a command; the commands of Machine/SpongeCommands.lean
are built from them. -/

namespace Sys2Proof.Machine

/-! ### Rates and domain bytes -/

/-- The absorb rate Ra (R120). NONE has no rate and no primitive runs in it; 0 stands there (log entry 10). -/
def absorbRate : SMode → Nat
  | .none => 0
  | .hash => 16
  | .keyed => 44

/-- The squeeze rate Rs (R120). NONE as above. -/
def squeezeRate : SMode → Nat
  | .none => 0
  | .hash => 16
  | .keyed => 24

/-- D_ABSORB (R131). -/
def dAbsorb : Byte := 0x03

/-- D_KEY (R131). -/
def dKey : Byte := 0x02

/-- D_SQUEEZE (R131). -/
def dSqueeze : Byte := 0x40

/-- D_SQUEEZE_KEY (R131). -/
def dSqueezeKey : Byte := 0x20

/-- D_RATCHET (R131). -/
def dRatchet : Byte := 0x10

/-- D_CRYPT (R131). -/
def dCrypt : Byte := 0x80

/-- D_ZERO (R131). -/
def dZero : Byte := 0x00

/-- PAD, the pad10* byte (R131). -/
def padByte : Byte := 0x01

/-! ### Primitives -/

/-- The sequencer's permutation: `Xoodoo[12]` on SST whatever N and R are (R130). The count is the model's own. -/
def Sequencer.permute (q : Sequencer) : Sequencer :=
  { q with sst := xoodoo 12 q.sst, perms := q.perms + 1 }

/-- XorBytes on sponge space (R121). -/
def Sequencer.xorAt (q : Sequencer) (k : Nat) (x : List Byte) : Sequencer :=
  { q with sst := xorBytes q.sst k x }

/-- `Up(n, cu)` (R122): the new state and the bytes extracted, none for n = NONE. -/
def up (n : Option Nat) (cu : Byte) (q : Sequencer) : Sequencer × List Byte :=
  let q1 := { q with sphase := .up }
  let q2 := if q1.smode = .keyed then q1.xorAt 47 [cu] else q1
  let q3 := q2.permute
  (q3, match n with
    | none => []
    | some n => memRead q3.sst 0 n)

/-- `Down(x, cd)` (R123): an absent block is an empty one. -/
def down (x : Option (List Byte)) (cd : Byte) (q : Sequencer) : Sequencer :=
  let block := x.getD []
  let q1 := { q with sphase := .down }
  let q2 := (q1.xorAt 0 block).xorAt block.length [padByte]
  q2.xorAt 47 [if q2.smode = .hash then cd &&& 0x01 else cd]

/-! ### Loops -/

/-- One continuation step of absorbing: `Up(NONE, 0)`, then `Down(c, 0)` (R126, R128). -/
def absorbStep (q : Sequencer) (c : List Byte) : Sequencer := down (some c) dZero (up none dZero q).1

/-- The forced up of R126: `Up(NONE, 0)` unless SPHASE is UP. -/
def forceUp (q : Sequencer) : Sequencer := if q.sphase = .up then q else (up none dZero q).1

/-- `AbsorbAny(x, r, cd)`, r ≥ 1 (R126). -/
def absorbAny (x : List Byte) (r : Nat) (cd : Byte) (q : Sequencer) : Sequencer :=
  match chunks x r with
  | [] => down none cd (forceUp q)
  | c :: cs => cs.foldl absorbStep (down (some c) cd (forceUp q))

/-- `AbsorbMoreSeq(x, r)` (R128). -/
def absorbMoreSeq (x : List Byte) (r : Nat) (q : Sequencer) : Sequencer := (chunks x r).foldl absorbStep q

/-- The continuation blocks of a squeeze: for each size, `Down(NONE, 0)`, then `Up(z, 0)` (R127, R129). -/
def squeezeBlocks : List Nat → Sequencer → Sequencer × List Byte
  | [], q => (q, [])
  | z :: zs, q =>
    let first := up (some z) dZero (down none dZero q)
    let rest := squeezeBlocks zs first.1
    (rest.1, first.2 ++ rest.2)

/-- `SqueezeAny(n, cu)` (R127). -/
def squeezeAny (n : Nat) (cu : Byte) (q : Sequencer) : Sequencer × List Byte :=
  match chunkSizes n (squeezeRate q.smode) with
  | [] => up none cu q
  | z :: zs =>
    let first := up (some z) cu q
    let rest := squeezeBlocks zs first.1
    (rest.1, first.2 ++ rest.2)

/-- `SqueezeMoreSeq(n)` (R129). -/
def squeezeMoreSeq (n : Nat) (q : Sequencer) : Sequencer × List Byte :=
  squeezeBlocks (chunkSizes n (squeezeRate q.smode)) q

/-! ### The internal buffers K and T -/

/-- A buffer of `n` bytes that holds `x` from its start, and zeros after it. -/
def fillBuf (n : Nat) (x : List Byte) : List Byte := x ++ List.replicate (n - x.length) 0

/-- Puts a keystream block into K (R148, R149). -/
def Sequencer.loadK (q : Sequencer) (x : List Byte) : Sequencer := { q with kbuf := fillBuf kBufBytes x }

/-- Zero-fills K (R148, R149, R203). -/
def Sequencer.wipeK (q : Sequencer) : Sequencer := { q with kbuf := List.replicate kBufBytes 0 }

/-- Puts the squeezed block into T (R147). -/
def Sequencer.loadT (q : Sequencer) (x : List Byte) : Sequencer := { q with tbuf := fillBuf tBufBytes x }

/-- Zero-fills T (R147, R203). -/
def Sequencer.wipeT (q : Sequencer) : Sequencer := { q with tbuf := List.replicate tBufBytes 0 }

/-! ### The operations behind the commands -/

/-- Zeroes SST and sets mode and phase: the start of a construction, or a release (R140, R141, R150). -/
def startSponge (mode : SMode) (q : Sequencer) : Sequencer :=
  { q with sst := Lane.zero, smode := mode, sphase := .up }

/-- Construction in Keyed mode: the IV with domain D_KEY, then the counter, if one is given, at rate 1 (R141). -/
def startKeyed (klen idlen nlen : Nat) (ctr : Option Nat) (din : List Byte) (q : Sequencer) : Sequencer :=
  let q1 := absorbAny (ivOf klen idlen nlen din) 44 dKey (startSponge .keyed q)
  if ctr.isSome then absorbAny (counterOf klen idlen nlen din) 1 dZero q1 else q1

/-- The ratchet (R147): squeeze 16 bytes into T, absorb T, wipe T. -/
def ratchet (q : Sequencer) : Sequencer :=
  let squeezed := squeezeAny 16 dRatchet q
  let q1 := squeezed.1.loadT squeezed.2
  (absorbAny q1.tbuf 44 dZero q1).wipeT

/-- One block of S.ENCRYPT (R148): K from `Up`, the plaintext absorbed, the ciphertext from K, K wiped. -/
def encryptBlock (cu : Byte) (p : List Byte) (q : Sequencer) : Sequencer × List Byte :=
  let keyed := up (some p.length) cu q
  let q1 := keyed.1.loadK keyed.2
  let q2 := down (some p) dZero q1
  (q2.wipeK, xorSeq p (q2.kbuf.take p.length))

/-- One block of S.DECRYPT (R149): K from `Up`, the plaintext from K, then absorbed, K wiped. -/
def decryptBlock (cu : Byte) (c : List Byte) (q : Sequencer) : Sequencer × List Byte :=
  let keyed := up (some c.length) cu q
  let q1 := keyed.1.loadK keyed.2
  let p := xorSeq c (q1.kbuf.take c.length)
  ((down (some p) dZero q1).wipeK, p)

/-- The block loop of R148 and R149: domain `cu` on the first block, 0 after it; outputs in order. -/
def cryptLoop (block : Byte → List Byte → Sequencer → Sequencer × List Byte) :
    Byte → List (List Byte) → Sequencer → Sequencer × List Byte
  | _, [], q => (q, [])
  | cu, x :: xs, q =>
    let first := block cu x q
    let rest := cryptLoop block dZero xs first.1
    (rest.1, first.2 ++ rest.2)

/-- S.ENCRYPT's loop (R148). -/
def encryptSeq (x : List Byte) (q : Sequencer) : Sequencer × List Byte :=
  cryptLoop encryptBlock dCrypt (cryptBlocks x) q

/-- S.DECRYPT's loop (R149). -/
def decryptSeq (x : List Byte) (q : Sequencer) : Sequencer × List Byte :=
  cryptLoop decryptBlock dCrypt (cryptBlocks x) q

end Sys2Proof.Machine
end

