-- ==== Sys2Proof/Machine/SpongeCommands.lean ====
section
/-! DEFINITION. Sys2Proof/Machine/SpongeCommands.lean: the sponge commands (spec/43_sponge_commands.md R140 to R150), one
definition each over the operations of Machine/Sponge.lean. Their checks are `check`'s (R181); none reads or writes a
lane (R12). -/

namespace Sys2Proof.Machine

/-- S.HASH (R140). -/
def execSHash (s : State) : Outcome := runSponge .sHash (fun _ q => (startSponge .hash q, [])) s

/-- S.KEYED (R141). -/
def execSKeyed (klen idlen nlen : Nat) (ctr : Option Nat) (s : State) : Outcome :=
  runSponge (.sKeyed klen idlen nlen ctr) (fun din q => (startKeyed klen idlen nlen ctr din q, [])) s

/-- S.ABSORB (R142): the message with framing, domain D_ABSORB. -/
def execSAbsorb (len : Nat) (s : State) : Outcome :=
  runSponge (.sAbsorb len) (fun din q => (absorbAny din (absorbRate q.smode) dAbsorb q, [])) s

/-- S.ABSORB_MORE (R143): the message without framing; an empty one changes nothing. -/
def execSAbsorbMore (len : Nat) (s : State) : Outcome :=
  runSponge (.sAbsorbMore len) (fun din q => (absorbMoreSeq din (absorbRate q.smode) q, [])) s

/-- S.SQUEEZE (R144): `len` bytes with framing, domain D_SQUEEZE. -/
def execSSqueeze (len : Nat) (s : State) : Outcome :=
  runSponge (.sSqueeze len) (fun _ q => squeezeAny len dSqueeze q) s

/-- S.SQUEEZE_MORE (R145): `len` bytes without framing; none for 0, and nothing changes. -/
def execSSqueezeMore (len : Nat) (s : State) : Outcome :=
  runSponge (.sSqueezeMore len) (fun _ q => squeezeMoreSeq len q) s

/-- S.SQUEEZE_KEY (R146): as S.SQUEEZE with domain D_SQUEEZE_KEY, Keyed only. -/
def execSSqueezeKey (len : Nat) (s : State) : Outcome :=
  runSponge (.sSqueezeKey len) (fun _ q => squeezeAny len dSqueezeKey q) s

/-- S.RATCHET (R147). -/
def execSRatchet (s : State) : Outcome := runSponge .sRatchet (fun _ q => (ratchet q, [])) s

/-- S.ENCRYPT (R148). -/
def execSEncrypt (len : Nat) (s : State) : Outcome := runSponge (.sEncrypt len) (fun din q => encryptSeq din q) s

/-- S.DECRYPT (R149). -/
def execSDecrypt (len : Nat) (s : State) : Outcome := runSponge (.sDecrypt len) (fun din q => decryptSeq din q) s

/-- S.RELEASE (R150). -/
def execSRelease (s : State) : Outcome := runSponge .sRelease (fun _ q => (startSponge .none q, [])) s

end Sys2Proof.Machine
end

