-- ==== Sys2Proof/Machine/System.lean ====
section
/-! DEFINITION. Sys2Proof/Machine/System.lean: the register reads (spec/44_system.md R170, R171). -/

namespace Sys2Proof.Machine

/-- RD_STATUS (R170): STATUS as four bytes; no state written. Runs in the faulted state too (R183). -/
def execRdStatus (s : State) : Outcome := runCommand .rdStatus (fun s => (s, wordBytes (status s))) s

/-- RD_CONFIG (R171): CONFIG as four bytes; no state written. Runs in the faulted state too (R183). -/
def execRdConfig (s : State) : Outcome := runCommand .rdConfig (fun s => (s, wordBytes (config s))) s

end Sys2Proof.Machine
end

