-- ==== Sys2Proof/Machine/Dispatch.lean ====
section
/-! DEFINITION. Sys2Proof/Machine/Dispatch.lean: `Exec` of rule R67: one arm per row of the opcode table (R57). -/

namespace Sys2Proof.Machine

def exec (i : Instr) (s : State) : Host.Outcome State Fault Refusal :=
  match i with
  | .rdStatus => Sys2Proof.Machine.execRdStatus s
  | .rdConfig => Sys2Proof.Machine.execRdConfig s
  | .ePermute => Sys2Proof.Machine.execEPermute s
  | .eAdd lane off len => Sys2Proof.Machine.execEAdd lane off len s
  | .eExtract lane len => Sys2Proof.Machine.execEExtract lane len s
  | .eZeroize => Sys2Proof.Machine.execEZeroize s
  | .sHash => Sys2Proof.Machine.execSHash s
  | .sKeyed klen idlen nlen ctr => Sys2Proof.Machine.execSKeyed klen idlen nlen ctr s
  | .sAbsorb len => Sys2Proof.Machine.execSAbsorb len s
  | .sAbsorbMore len => Sys2Proof.Machine.execSAbsorbMore len s
  | .sSqueeze len => Sys2Proof.Machine.execSSqueeze len s
  | .sSqueezeMore len => Sys2Proof.Machine.execSSqueezeMore len s
  | .sSqueezeKey len => Sys2Proof.Machine.execSSqueezeKey len s
  | .sRatchet => Sys2Proof.Machine.execSRatchet s
  | .sEncrypt len => Sys2Proof.Machine.execSEncrypt len s
  | .sDecrypt len => Sys2Proof.Machine.execSDecrypt len s
  | .sRelease => Sys2Proof.Machine.execSRelease s

end Sys2Proof.Machine
end

