-- ==== Sys2Proof/Machine/Port.lean ====
section
/-! DEFINITION. Sys2Proof/Machine/Port.lean: the command port (R50, R67, R68): taking the host's next action and
performing one transaction, and the answer as a byte transport carries it (R35, R66). -/

namespace Sys2Proof.Machine

/-- A transaction whose CMD or LEN the decoder rejects: refused in the faulted state (R183), a fault otherwise (checks 1
and 2 of R181, R182). -/
def rejectCommand (e : Reject) (s : State) : State :=
  if s.fault then refuse s else raiseFault (rejectCause e) s

/-- One transaction (R67): DIN arrives with it, the decoder reads CMD and LEN, and the command runs. -/
def transact (t : Transaction) (s : State) : Outcome :=
  match decode t.cmd t.len with
  | .ok i => exec i { s with din := t.din }
  | .error e => .next (rejectCommand e { s with din := t.din })

/-- Takes the host's next action (R68). With none, the block waits and nothing changes (R42, log entry 4). -/
def takeAction (s : State) : Outcome :=
  match s.pending with
  | [] => .next s
  | .reset :: rest => .next { s with pending := rest }.doReset
  | .issue t :: rest => transact t { s with pending := rest }

/-- The answer to the last transaction as bytes: DOUT, then RESP least significant byte first (R35, R66, log entry 6). -/
def State.answerBytes (s : State) : List Byte := responseBytes s.dout s.resp

/-- The DIN that goes with an opcode-table word: as many zero bytes as R58 asks of the command, so that it is not turned
away for its length (log entry 11). -/
def zeroDin (cmd len : Word) : List Byte :=
  match decode cmd len with
  | .ok i => List.replicate (dinLen i) 0
  | .error _ => []

/-- The transaction an opcode-table word stands for: bits 31..0 are CMD, bits 63..32 LEN, bits from `nbits` up 0. -/
def tableTransaction (nbits w : Nat) : Transaction :=
  let v := w % 2 ^ nbits
  let cmd := BitVec.ofNat 32 v
  let len := BitVec.ofNat 32 (v / 2 ^ 32)
  ⟨cmd, len, zeroDin cmd len⟩

end Sys2Proof.Machine
end

