-- ==== Sys2Proof/Machine/Step.lean ====
section
/-! DEFINITION. Sys2Proof/Machine/Step.lean: one step of the machine (R67): one action of the host, or waiting for one. -/

namespace Sys2Proof.Machine

/-- One step. -/
def step (s : State) : Host.Outcome State Fault Refusal := takeAction s

/-- `s` with the transaction of an opcode-table word as the host's next action: the block has no program counter and
fetches nothing (R47), a command runs when the host issues it (log entry 2). -/
def State.withFetchWord (s : State) (nbits w : Nat) : State :=
  { s with pending := .issue (tableTransaction nbits w) :: s.pending }

end Sys2Proof.Machine
end

