-- ==== Sys2Proof/Machine/Assembler.lean ====
section
/-! DEFINITION. Sys2Proof/Machine/Assembler.lean: the assembler of spec/30_encoding.md §5 (R64, R65): the transaction each
written command stands for, with the two pseudo-instructions. Nothing in the block depends on it. -/

namespace Sys2Proof.Machine

/-- A written command: operands are byte strings and numbers (R65). -/
inductive Asm where
  | rdStatus
  | rdConfig
  | ePermute
  | eAdd (lane off : Nat) (bytes : List Byte)
  | eExtract (lane n : Nat)
  | eZeroize
  | sHash
  | sKeyed (key id nonce : List Byte) (counter : Option (List Byte))
  | sAbsorb (bytes : List Byte)
  | sAbsorbMore (bytes : List Byte)
  | sSqueeze (n : Nat)
  | sSqueezeMore (n : Nat)
  | sSqueezeKey (n : Nat)
  | sRatchet
  | sEncrypt (bytes : List Byte)
  | sDecrypt (bytes : List Byte)
  | sRelease
  /-- S.ENCRYPT_IP (R64): the host writes DOUT back over its buffer, outside the block. -/
  | sEncryptIp (bytes : List Byte)
  /-- S.DECRYPT_IP (R64): as S.ENCRYPT_IP. -/
  | sDecryptIp (bytes : List Byte)
deriving DecidableEq, Repr

/-- The command a written command encodes; a pseudo-instruction expands first (R64, R65). -/
def Asm.instr : Asm → Instr
  | .rdStatus => .rdStatus
  | .rdConfig => .rdConfig
  | .ePermute => .ePermute
  | .eAdd lane off bytes => .eAdd lane off bytes.length
  | .eExtract lane n => .eExtract lane n
  | .eZeroize => .eZeroize
  | .sHash => .sHash
  | .sKeyed key id nonce counter => .sKeyed key.length id.length nonce.length (counter.map List.length)
  | .sAbsorb bytes => .sAbsorb bytes.length
  | .sAbsorbMore bytes => .sAbsorbMore bytes.length
  | .sSqueeze n => .sSqueeze n
  | .sSqueezeMore n => .sSqueezeMore n
  | .sSqueezeKey n => .sSqueezeKey n
  | .sRatchet => .sRatchet
  | .sEncrypt bytes | .sEncryptIp bytes => .sEncrypt bytes.length
  | .sDecrypt bytes | .sDecryptIp bytes => .sDecrypt bytes.length
  | .sRelease => .sRelease

/-- The DIN of a written command (R65). -/
def Asm.din : Asm → List Byte
  | .eAdd _ _ bytes | .sAbsorb bytes | .sAbsorbMore bytes | .sEncrypt bytes | .sDecrypt bytes | .sEncryptIp bytes
  | .sDecryptIp bytes => bytes
  | .sKeyed key id nonce counter => key ++ id ++ nonce ++ counter.getD []
  | .rdStatus | .rdConfig | .ePermute | .eExtract _ _ | .eZeroize | .sHash | .sSqueeze _ | .sSqueezeMore _
  | .sSqueezeKey _ | .sRatchet | .sRelease => []

/-- The transaction of a written command (R65). For an operand that does not fit its field R65 names no outcome; CMD and LEN
are then `encode`'s, with the operand's low bits, and DIN is all the bytes written (DESIGN CHOICE, log entry 19). -/
def Asm.transaction (a : Asm) : Transaction := ⟨(encode a.instr).1, (encode a.instr).2, a.din⟩

end Sys2Proof.Machine
end

