-- ==== Sys2Proof/Safety.lean ====
section
/-! DEFINITION. Sys2Proof/Safety.lean: the terms claims use: the invariant of the block between transactions, in named
parts; the ready state in which the block takes commands; and the check order of R181 spelled out over the raw words of a
transaction, apart from the decoder. The machine uses none of it. -/

namespace Sys2Proof.Machine

/-- The build parameters are legal (R5, R6). -/
abbrev State.LegalBuild (s : State) : Prop :=
  Config.LegalLanes s.nLanes ∧ Config.LegalRounds s.rounds

/-- CAUSE is NONE exactly when FAULT is 0 (R16, R180, R182). -/
abbrev State.FaultCoherent (s : State) : Prop := s.fault = true ↔ s.cause ≠ .none

/-- With no sponge constructed, SST holds nothing and the phase is UP (R13, R22, R150). -/
abbrev Sequencer.EmptyWhenNone (q : Sequencer) : Prop :=
  q.smode = .none → q.sst = Lane.zero ∧ q.sphase = .up

/-- The internal buffers K and T hold zeros (spec/43_sponge_commands.md, R203). -/
abbrev Sequencer.BuffersWiped (q : Sequencer) : Prop :=
  q.kbuf = List.replicate kBufBytes 0 ∧ q.tbuf = List.replicate tBufBytes 0

/-- No transaction is in progress (R21, R40), and RESP is STATUS (R60). -/
abbrev State.PortSettled (s : State) : Prop := s.din = [] ∧ s.resp = status s

/-- What holds between transactions. -/
abbrev State.Inv (s : State) : Prop :=
  s.LegalBuild ∧ s.FaultCoherent ∧ s.seq.EmptyWhenNone ∧ s.seq.BuffersWiped ∧ s.PortSettled

/-- The block takes commands: no fault, no cause (R16, R183). -/
abbrev State.Ready (s : State) : Prop := s.fault = false ∧ s.cause = .none

/-- The opcodes of R57. -/
def opcodes : List Nat :=
  [0x01, 0x02, 0x10, 0x11, 0x12, 0x13, 0x20, 0x21, 0x22, 0x23, 0x24, 0x25, 0x26, 0x27, 0x28, 0x29, 0x2F]

/-- The opcodes of format N (R52). -/
def opcodesN : List Nat := [0x01, 0x02, 0x10, 0x13, 0x20, 0x27, 0x2F]

/-- The opcodes of format L (R54). -/
def opcodesL : List Nat := [0x22, 0x23, 0x24, 0x25, 0x26, 0x28, 0x29]

/-- `Check(st, CMD, LEN, DIN)` as R181 lists it, on the numbers of the words alone: field `hi:lo` of CMD is
`CMD / 2^lo % 2^(hi-lo+1)`. -/
def specCheck (s : State) (cmd len : Word) (din : List Byte) : Cause :=
  let c := cmd.toNat
  let l := len.toNat
  let opc := c % 2 ^ 8
  let klen := c / 2 ^ 8 % 2 ^ 6
  let idlen := c / 2 ^ 14 % 2 ^ 6
  let nlen := c / 2 ^ 20 % 2 ^ 6
  let lane := c / 2 ^ 8 % 2 ^ 8
  let off := c / 2 ^ 16 % 2 ^ 6
  let dinLength :=
    if opc ∈ [0x11, 0x22, 0x23, 0x28, 0x29] then l else if opc = 0x21 then klen + idlen + nlen + l else 0
  if opc ∉ opcodes then .illegalOpcode
  else if opc ∈ opcodesN ∧ (c / 2 ^ 8 ≠ 0 ∨ l ≠ 0) ∨ opc ∈ opcodesL ∧ c / 2 ^ 8 ≠ 0 ∨
      opc = 0x11 ∧ c / 2 ^ 22 ≠ 0 ∨ opc = 0x12 ∧ c / 2 ^ 16 ≠ 0 ∨
      opc = 0x21 ∧ (c / 2 ^ 27 ≠ 0 ∨ c / 2 ^ 26 % 2 = 0 ∧ l ≠ 0) then .reservedNonzero
  else if din.length ≠ dinLength then .dinLength
  else if opc ∈ [0x11, 0x12] ∧ s.nLanes ≤ lane then .laneRange
  else if opc = 0x11 ∧ 48 < off + l then .addBounds
  else if opc = 0x12 ∧ 48 < l then .extractBounds
  else if 0x22 ≤ opc ∧ opc ≤ 0x29 ∧ s.seq.smode = .none then .spongeUninit
  else if opc ∈ [0x26, 0x27, 0x28, 0x29] ∧ s.seq.smode = .hash then .keyedOnly
  else if opc = 0x21 ∧ 44 < klen + idlen + nlen + 1 then .ivTooLong
  else .none

end Sys2Proof.Machine
end

