-- ==== Sys2Proof/Certificates/Slice0/Obligations.lean ====
section
/-! DEFINITION. Sys2Proof/Certificates/Slice0/Obligations.lean: the statements about the block, rule by rule. Next states are
written out: what a record update does not name is unchanged. `resp` is written as STATUS of the state it stands in.

`perms`, `kbuf`, `tbuf`, `pending`, `din`, `dout` and `resp` are the model's own fields (log entries 2, 3, 5, 7, 8). -/

open Sys2Proof Sys2Proof.Machine

/-! ## Encoding -/

/-- R51 to R57, R65: decoding the words of a well-formed command gives it back, every operand at every value its field
admits. -/
def Obligations.DecodeOfEncodeIsTheCommand : Prop :=
  ∀ i : Instr, i.wellFormed = true → decode (encode i).1 (encode i).2 = .ok i

/-- R51, R61 to R63: a pair of words that decodes to a command is that command's encoding, and no bit of either is
dropped; the command is well-formed. -/
def Obligations.EncodeOfDecodeIsTheWords : Prop :=
  ∀ (cmd len : Word) (i : Instr), decode cmd len = .ok i → i.wellFormed = true ∧ encode i = (cmd, len)

/-- Words written out in R65 and 95_test_vectors.md decode to the commands they stand for, one or more per format. -/
def Obligations.WrittenWordsDecode : Prop :=
  decode 0x00000001 0 = .ok .rdStatus ∧ decode 0x00000010 0 = .ok .ePermute ∧
  decode 0x002F0111 1 = .ok (.eAdd 1 47 1) ∧ decode 0x00000112 48 = .ok (.eExtract 1 48) ∧
  decode 0x00D29421 0 = .ok (.sKeyed 20 10 13 none) ∧ decode 0x04000321 2 = .ok (.sKeyed 3 0 0 (some 2)) ∧
  decode 0x00000022 3 = .ok (.sAbsorb 3) ∧ decode 0x0000002F 0 = .ok .sRelease

/-- R57 and opcode_table.json: a command the decoder reads has the CMD bits that the row of its mnemonic fixes, and no
other row's. -/
def Obligations.DecodedCommandMatchesItsTableRowOnly : Prop :=
  ∀ (cmd len : Word) (i : Instr), decode cmd len = .ok i →
    ∀ row ∈ opcodeTable, cmd &&& row.mask = row.value ↔ row.mnemonic = i.mnemonic

/-- R66: a transaction carried as bytes, each word least significant byte first, is read back whole: the command that CMD
and LEN decode to, and DIN; the answer goes back as DOUT, byte 0 first, and RESP, least significant byte first, and is read
back whole. (That CMD comes before LEN, and DOUT before RESP, is the model's reading, log entry 6.) -/
def Obligations.TransportReadsBackTheTransaction : Prop :=
  (∀ (cmd len : Word) (din : List Byte) (i : Instr), decode cmd len = .ok i →
    decodeBytes
      ([cmd.setWidth 8, (cmd >>> 8).setWidth 8, (cmd >>> 16).setWidth 8, (cmd >>> 24).setWidth 8,
        len.setWidth 8, (len >>> 8).setWidth 8, (len >>> 16).setWidth 8, (len >>> 24).setWidth 8] ++ din) =
      .ok (i, din)) ∧
  (∀ s : State,
    s.answerBytes = s.dout ++
      [s.resp.setWidth 8, (s.resp >>> 8).setWidth 8, (s.resp >>> 16).setWidth 8, (s.resp >>> 24).setWidth 8] ∧
    readResponse s.answerBytes = some (s.dout, s.resp))

/-- R58, R64, R65: an assembled command decodes to the command it is written for, with exactly the DIN that command
needs; the in-place forms are the transactions of S.ENCRYPT and S.DECRYPT. -/
def Obligations.AssembledCommandsDecodeWithTheirDin : Prop :=
  (∀ a : Asm, a.instr.wellFormed = true →
    decode a.transaction.cmd a.transaction.len = .ok a.instr ∧ a.transaction.din.length = dinLen a.instr) ∧
  (∀ x : List Byte, (Asm.sEncryptIp x).transaction = (Asm.sEncrypt x).transaction ∧
    (Asm.sDecryptIp x).transaction = (Asm.sDecrypt x).transaction)

/-! ## The step -/

/-- R50, R63, R67: when the host's next action is a transaction whose words decode to a command, the step is that
command's execution, with the action taken off the port and DIN at hand. -/
def Obligations.StepRunsTheDecodedCommand : Prop :=
  ∀ (s : State) (t : Transaction) (rest : List HostAction) (i : Instr),
    s.pending = .issue t :: rest → decode t.cmd t.len = .ok i →
    step s = exec i { s with pending := rest, din := t.din }

/-- R184, R200: reset gives every piece of state its value of R22 whatever it held, faulted or not; N and R stay. The
port fields, the buffers and the count are the model's own (log entries 2, 3, 7, 8). -/
def Obligations.ResetClearsEverything : Prop :=
  ∀ (s : State) (rest : List HostAction), s.pending = .reset :: rest →
    step s = .next
      { lanes := List.replicate s.lanes.length Lane.zero
        rounds := s.rounds
        seq := { sst := Lane.zero, smode := .none, sphase := .up, kbuf := List.replicate 24 0,
                 tbuf := List.replicate 16 0, perms := 0 }
        fault := false, cause := .none, pending := rest, din := [], dout := [], resp := 0 }

/-- R22: after reset every lane word and every SST word is 0, SMODE is NONE, SPHASE UP, FAULT 0, CAUSE NONE and STATUS 0,
for every N and R; CONFIG is the constant of R18 for every legal build. -/
def Obligations.ResetValuesAreTheSpecs : Prop :=
  ∀ n r : Nat,
    (State.afterReset n r).lanes.length = n ∧
    (∀ l < n, ∀ w < 12, ((State.afterReset n r).lane l).word w = 0x00000000) ∧
    (∀ w < 12, (State.afterReset n r).seq.sst.word w = 0x00000000) ∧
    (State.afterReset n r).seq.smode = .none ∧ (State.afterReset n r).seq.sphase = .up ∧
    (State.afterReset n r).fault = false ∧ (State.afterReset n r).cause = .none ∧
    status (State.afterReset n r) = 0x00000000 ∧
    (Config.LegalLanes n → Config.LegalRounds r →
      (config (State.afterReset n r)).toNat = n + r * 2 ^ 8 + 12 * 2 ^ 12 + 48 * 2 ^ 16 + 1 * 2 ^ 24)

/-- R67: the step is total: from every state it gives a next state; the block never hangs and never stops. -/
def Obligations.EveryStepAnswers : Prop :=
  ∀ s : State, ∃ t, step s = .next t

/-- R60: whatever a transaction's outcome, RESP is STATUS after it, its FAULT bit is bit 0 and its cause code bits 7:4. That
the transaction is then off `pending` and `din` empty is the model's own choice (log entries 2 and 5). -/
def Obligations.ResponseIsStatusAfterTheTransaction : Prop :=
  ∀ (s : State) (tr : Transaction) (rest : List HostAction), s.pending = .issue tr :: rest →
    ∃ t, step s = .next t ∧ t.resp = status t ∧ t.resp.getLsbD 0 = t.fault ∧
      (t.resp.toNat / 2 ^ 4) % 2 ^ 4 = t.cause.code ∧ t.pending = rest ∧ t.din = []

/-- R59: on success DOUT has `dout_len` bytes: LEN for E.EXTRACT, the squeezes, S.ENCRYPT and S.DECRYPT, 4 for the register
reads, else 0. On a fault it is empty. -/
def Obligations.OutputHasItsLength : Prop :=
  ∀ (i : Instr) (s : State), s.Ready → ∃ t, exec i s = .next t ∧
    (t.fault = true → t.dout = []) ∧
    (t.fault = false → t.dout.length =
      match i with
      | .rdStatus | .rdConfig => 4
      | .eExtract _ n | .sSqueeze n | .sSqueezeMore n | .sSqueezeKey n | .sEncrypt n | .sDecrypt n => n
      | .ePermute | .eAdd _ _ _ | .eZeroize | .sHash | .sKeyed _ _ _ _ | .sAbsorb _ | .sAbsorbMore _ | .sRatchet
      | .sRelease => 0)

/-! ## Faults -/

/-- R181: the first of the eight conditions that holds, read off the raw words, is the cause the transaction reports; with
none holding there is no fault. -/
def Obligations.CauseIsTheFirstFailingCheck : Prop :=
  ∀ (s : State) (tr : Transaction) (rest : List HostAction), s.Ready → s.pending = .issue tr :: rest →
    ∃ t, step s = .next t ∧ t.cause = specCheck s tr.cmd tr.len tr.din ∧
      (t.fault = true ↔ specCheck s tr.cmd tr.len tr.din ≠ .none)

/-- R182: a failing check sets FAULT and CAUSE and changes nothing else of the block; DOUT is empty and RESP the new
STATUS. (`pending` and `din` are the model's own fields, log entries 2 and 5.) -/
def Obligations.FaultEntryIsPrecise : Prop :=
  ∀ (s : State) (tr : Transaction) (rest : List HostAction) (c : Cause), s.Ready → s.pending = .issue tr :: rest →
    specCheck s tr.cmd tr.len tr.din = c → c ≠ .none →
    step s = .next { s with
      pending := rest, fault := true, cause := c, din := [], dout := []
      resp := statusWord true c s.seq.smode s.seq.sphase }

/-- R183: in the faulted state a well-formed RD_STATUS or RD_CONFIG answers its register; every other transaction is refused,
with empty DOUT; neither changes any state. (`pending` and `din` are the model's own fields, log entries 2 and 5.) -/
def Obligations.FaultedBlockOnlyReadsRegisters : Prop :=
  ∀ (s : State) (tr : Transaction) (rest : List HostAction), s.fault = true → s.pending = .issue tr :: rest →
    step s = .next { s with
      pending := rest, din := []
      dout :=
        if tr.len = 0 ∧ tr.din = [] ∧ tr.cmd = 0x00000001 then
          [(status s).setWidth 8, (status s >>> 8).setWidth 8, (status s >>> 16).setWidth 8,
            (status s >>> 24).setWidth 8]
        else if tr.len = 0 ∧ tr.din = [] ∧ tr.cmd = 0x00000002 then
          [(config s).setWidth 8, (config s >>> 8).setWidth 8, (config s >>> 16).setWidth 8,
            (config s >>> 24).setWidth 8]
        else []
      resp := status s }

/-- R16, R184: only reset ends the faulted state; until then CAUSE, the lanes and the sequencer stay as they are. -/
def Obligations.FaultIsStickyUntilReset : Prop :=
  ∀ s t : State, s.fault = true → step s = .next t →
    (∃ rest, s.pending = .reset :: rest) ∨
    (t.fault = true ∧ t.cause = s.cause ∧ t.lanes = s.lanes ∧ t.seq = s.seq)

/-- R152: in each SMODE, a command with its right DIN and operands in range runs or faults as the table says. -/
def Obligations.LegalityByMode : Prop :=
  ∀ (s : State) (i : Instr), s.Ready → s.din.length = dinLen i →
    (i ∈ [.sHash, .sRelease] ∨ (∃ k d n c, i = .sKeyed k d n c ∧ k + d + n ≤ 43) →
      ∃ t, exec i s = .next t ∧ t.fault = false) ∧
    (∀ len, i ∈ [.sAbsorb len, .sAbsorbMore len, .sSqueeze len, .sSqueezeMore len] →
      ∃ t, exec i s = .next t ∧ t.cause = if s.seq.smode = .none then .spongeUninit else .none) ∧
    (∀ len, i ∈ [.sSqueezeKey len, .sRatchet, .sEncrypt len, .sDecrypt len] →
      ∃ t, exec i s = .next t ∧ t.cause =
        match s.seq.smode with
        | .none => .spongeUninit
        | .hash => .keyedOnly
        | .keyed => .none)

/-! ## Registers -/

/-- R17: the fields of STATUS by their bits; the reserved bits 3:1 and 31:11 read as 0. -/
def Obligations.StatusFieldsStandWhereTheyShould : Prop :=
  ∀ s : State, (status s).toNat =
    (if s.fault then 1 else 0) +
    16 * (match s.cause with
      | .none => 0 | .illegalOpcode => 1 | .reservedNonzero => 2 | .dinLength => 3 | .laneRange => 4
      | .addBounds => 5 | .extractBounds => 6 | .spongeUninit => 7 | .keyedOnly => 8 | .ivTooLong => 9) +
    256 * (match s.seq.smode with | .none => 0 | .hash => 1 | .keyed => 2) +
    1024 * (match s.seq.sphase with | .up => 0 | .down => 1)

/-- R18: the fields of CONFIG by their bits, for every legal build. -/
def Obligations.ConfigFieldsStandWhereTheyShould : Prop :=
  ∀ s : State, s.LegalBuild → (config s).toNat =
    s.lanes.length + s.rounds * 2 ^ 8 + 12 * 2 ^ 12 + 48 * 2 ^ 16 + 1 * 2 ^ 24

/-- R170: RD_STATUS with no DIN returns STATUS, least significant byte first, faulted or not, and changes no state. -/
def Obligations.RdStatusReturnsStatus : Prop :=
  ∀ s : State, s.din = [] → exec .rdStatus s = .next { s with
    din := []
    dout := [(status s).setWidth 8, (status s >>> 8).setWidth 8, (status s >>> 16).setWidth 8,
      (status s >>> 24).setWidth 8]
    resp := status s }

/-- R18, R171: RD_CONFIG with no DIN returns, for every legal build and faulted or not, the bytes N, R + 0xC0, 0x30 and 0x01,
and changes no state. -/
def Obligations.RdConfigReturnsBuildParameters : Prop :=
  ∀ s : State, s.LegalBuild → s.din = [] → exec .rdConfig s = .next { s with
    din := []
    dout := [BitVec.ofNat 8 s.lanes.length, BitVec.ofNat 8 (s.rounds + 0xC0), 0x30, 0x01]
    resp := status s }

/-! ## The byte view -/

/-- R31, R33, R36: the words and the bytes are two readings of the same bits: byte k is
`(s[k div 4] >> (8 * (k mod 4))) & 0xFF`, a word is the sum of its four bytes, and any 48 bytes are the bytes of a state. -/
def Obligations.WordsAndBytesAreTwoReadings : Prop :=
  (∀ (s : Lane) (k : Nat), k < 48 → s.byte k = (s.word (k / 4) >>> (8 * (k % 4))).setWidth 8) ∧
  (∀ (s : Lane) (w : Nat), w < 12 → (s.word w).toNat =
    (s.byte (4 * w)).toNat + (s.byte (4 * w + 1)).toNat * 2 ^ 8 + (s.byte (4 * w + 2)).toNat * 2 ^ 16 +
      (s.byte (4 * w + 3)).toNat * 2 ^ 24) ∧
  (∀ f : Nat → Byte, ∃ s : Lane, ∀ k < 48, s.byte k = f k)

/-! ## The permutation -/

/-- R8: for r < 32, bit i of `rotl32(v, r)` is bit i - r (mod 32) of v: the rotation is toward the most significant bit. -/
def Obligations.RotationIsTowardTheTopBit : Prop :=
  ∀ (v : Word) (r i : Nat), r < 32 → i < 32 → (rotl32 v r).getLsbD i = v.getLsbD ((i + (32 - r)) % 32)

/-- R83: Theta, word by word, with indexes mod 4. -/
def Obligations.ThetaMixesTheColumnParity : Prop :=
  ∀ (s : Lane) (x : Nat), x < 4 →
    let p := fun y => s.word y ^^^ s.word (4 + y) ^^^ s.word (8 + y)
    let e := rotl32 (p ((x + 3) % 4)) 5 ^^^ rotl32 (p ((x + 3) % 4)) 14
    (theta s).word x = s.word x ^^^ e ∧ (theta s).word (4 + x) = s.word (4 + x) ^^^ e ∧
      (theta s).word (8 + x) = s.word (8 + x) ^^^ e

/-- R84, R85, R87: Rho-West, Iota and Rho-East, word by word, with indexes mod 4. -/
def Obligations.RhoAndIotaMoveTheirWords : Prop :=
  ∀ (s : Lane) (k : Word) (x : Nat), x < 4 →
    ((rhoWest s).word x = s.word x ∧ (rhoWest s).word (4 + x) = s.word (4 + (x + 3) % 4) ∧
      (rhoWest s).word (8 + x) = rotl32 (s.word (8 + x)) 11) ∧
    ((iota k s).word x = (if x = 0 then s.word 0 ^^^ k else s.word x) ∧
      (iota k s).word (4 + x) = s.word (4 + x) ∧ (iota k s).word (8 + x) = s.word (8 + x)) ∧
    ((rhoEast s).word x = s.word x ∧ (rhoEast s).word (4 + x) = rotl32 (s.word (4 + x)) 1 ∧
      (rhoEast s).word (8 + x) = rotl32 (s.word (8 + (x + 2) % 4)) 8)

/-- R86: Chi updates A, then B from the new A, then C from the new A and B; and that is, on every input, the parallel Chi, in
which every term reads the values before the step. -/
def Obligations.ChiIsTheParallelChi : Prop :=
  ∀ (s : Lane) (x : Nat), x < 4 →
    (chi s).word (4 + x) = s.word (4 + x) ^^^ (~~~s.word (8 + x) &&& (chi s).word x) ∧
    (chi s).word (8 + x) = s.word (8 + x) ^^^ (~~~(chi s).word x &&& (chi s).word (4 + x)) ∧
    (chi s).word x = s.word x ^^^ (~~~s.word (4 + x) &&& s.word (8 + x)) ∧
    (chi s).word (4 + x) = s.word (4 + x) ^^^ (~~~s.word (8 + x) &&& s.word x) ∧
    (chi s).word (8 + x) = s.word (8 + x) ^^^ (~~~s.word x &&& s.word (4 + x))

/-- R87: Rho-East on plane C as a table over its 16 bytes: new byte j is old byte T[j]. -/
def Obligations.RhoEastIsTheByteTable : Prop :=
  ∀ (s : Lane) (j : Nat), j < 16 →
    (rhoEast s).byte (32 + j) =
      s.byte (32 + [11, 8, 9, 10, 15, 12, 13, 14, 3, 0, 1, 2, 7, 4, 5, 6].getD j 0)

/-- R82, R88: a round is its five steps in order, and `Xoodoo[r]` for r = 1 to 12 is a first round with `RC[12 - r]` and then
`Xoodoo[r - 1]` (R81). -/
def Obligations.XoodooIsItsRoundsInOrder : Prop :=
  (∀ (s : Lane) (k : Word), xoodooRound s k = rhoEast (chi (iota k (rhoWest (theta s))))) ∧
  (∀ s : Lane, xoodoo 0 s = s) ∧
  (∀ (s : Lane) (r : Nat), 1 ≤ r → r ≤ 12 →
    xoodoo r s = xoodoo (r - 1) (xoodooRound s
      ([0x058, 0x038, 0x3C0, 0x0D0, 0x120, 0x014, 0x060, 0x02C, 0x380, 0x0F0, 0x1A0, 0x012].getD (12 - r) 0)))

/-- R88: the permutation is a bijection on 12-word states, for every round count. -/
def Obligations.XoodooIsABijection : Prop :=
  ∀ r : Nat, Function.Bijective (xoodoo r)

/-! ## The engine's commands -/

/-- R89, R91: E.PERMUTE completes in every ready state and applies `Xoodoo[R]` to every lane; nothing else changes. -/
def Obligations.PermuteAppliesXoodooToEveryLane : Prop :=
  ∀ s : State, s.Ready → s.din = [] → ∃ ls : List Lane,
    exec .ePermute s = .next { s with
      lanes := ls, din := [], dout := [], resp := statusWord false .none s.seq.smode s.seq.sphase } ∧
    ls.length = s.lanes.length ∧ ∀ l < s.lanes.length, ls.getD l Lane.zero = xoodoo s.rounds (s.lanes.getD l Lane.zero)

/-- R89: E.PERMUTE applies `Xoodoo[R]` to each lane l, and what it makes of lane l is what the scalar engine (N = 1) makes of
a lane with the same contents, whatever the other lanes hold. -/
def Obligations.BatchedPermuteIsScalarPerLane : Prop :=
  ∀ (s scalar : State) (l : Nat), s.Ready → s.din = [] → scalar.Ready → scalar.din = [] →
    scalar.rounds = s.rounds → l < s.lanes.length → scalar.lanes = [s.lane l] →
    ∃ t u, exec .ePermute s = .next t ∧ exec .ePermute scalar = .next u ∧
      t.lane l = xoodoo s.rounds (s.lane l) ∧ u.lanes = [t.lane l]

/-- R34, R100: E.ADD with its DIN, in range, XORs DIN into bytes OFF to OFF + LEN - 1 of its lane; every other byte of every
lane, and all else, is unchanged. -/
def Obligations.AddXorsItsBytesIntoItsLane : Prop :=
  ∀ (s : State) (lane off len : Nat), s.Ready → s.din.length = len → lane < s.lanes.length → off + len ≤ 48 →
    ∃ ls : List Lane,
      exec (.eAdd lane off len) s = .next { s with
        lanes := ls, din := [], dout := [], resp := statusWord false .none s.seq.smode s.seq.sphase } ∧
      ls.length = s.lanes.length ∧
      ∀ l < s.lanes.length, ∀ k < 48, (ls.getD l Lane.zero).byte k =
        if l = lane ∧ off ≤ k ∧ k < off + len then (s.lane l).byte k ^^^ s.din.getD (k - off) 0
        else (s.lane l).byte k

/-- R41: the same E.ADD twice restores the lanes. -/
def Obligations.AddTwiceRestoresTheLanes : Prop :=
  ∀ (s : State) (lane off len : Nat), s.Ready → s.din.length = len → lane < s.lanes.length → off + len ≤ 48 →
    ∃ t u, exec (.eAdd lane off len) s = .next t ∧ exec (.eAdd lane off len) { t with din := s.din } = .next u ∧
      u.lanes = s.lanes

/-- R31, R101: E.EXTRACT with no DIN, in range, returns bytes 0 to LEN - 1 of its lane and changes no state. -/
def Obligations.ExtractReturnsTheFirstBytes : Prop :=
  ∀ (s : State) (lane len : Nat), s.Ready → s.din = [] → lane < s.lanes.length → len ≤ 48 →
    exec (.eExtract lane len) s = .next { s with
      din := []
      dout := (List.range len).map fun k => ((s.lane lane).word (k / 4) >>> (8 * (k % 4))).setWidth 8
      resp := statusWord false .none s.seq.smode s.seq.sphase }

/-- R102: E.ZEROIZE sets every word of every lane to 0; nothing else changes. -/
def Obligations.ZeroizeClearsEveryLane : Prop :=
  ∀ s : State, s.Ready → s.din = [] →
    exec .eZeroize s = .next { s with
      lanes := List.replicate s.lanes.length Lane.zero, din := [], dout := []
      resp := statusWord false .none s.seq.smode s.seq.sphase }

/-! ## The sponge's primitives -/

/-- R122: `Up` sets SPHASE, XORs its domain byte into byte 47 in KEYED mode only, permutes, and returns the first n bytes. -/
def Obligations.UpPermutesThenExtracts : Prop :=
  ∀ (n : Option Nat) (cu : Byte) (q : Sequencer), ∃ v : Lane,
    (∀ k < 48, v.byte k = q.sst.byte k ^^^ (if k = 47 ∧ q.smode = .keyed then cu else 0)) ∧
    up n cu q = ({ q with sphase := .up, sst := xoodoo 12 v, perms := q.perms + 1 },
      (List.range (n.getD 0)).map fun k => (xoodoo 12 v).byte k)

/-- R123: `Down` of a block of at most 44 bytes sets SPHASE and XORs in the block at offset 0, 0x01 right after it, and the
domain byte, masked to its low bit in HASH mode, at offset 47. It does not permute. -/
def Obligations.DownXorsBlockPadAndDomain : Prop :=
  ∀ (x : Option (List Byte)) (cd : Byte) (q : Sequencer), (x.getD []).length ≤ 44 → ∃ v : Lane,
    down x cd q = { q with sphase := .down, sst := v } ∧
    ∀ k < 48, v.byte k = q.sst.byte k ^^^
      (if k < (x.getD []).length then (x.getD []).getD k 0
       else if k = (x.getD []).length then 0x01
       else if k = 47 then (if q.smode = .hash then cd &&& 0x01 else cd)
       else 0)

/-- R132: SPHASE after the primitives and the loops. -/
def Obligations.PhaseFollowsThePrimitives : Prop :=
  (∀ n cu q, (up n cu q).1.sphase = .up) ∧ (∀ x cd q, (down x cd q).sphase = .down) ∧
  (∀ x r cd q, (absorbAny x r cd q).sphase = .down) ∧ (∀ n cu q, (squeezeAny n cu q).1.sphase = .up) ∧
  (∀ x r q, 0 < r → (absorbMoreSeq x r q).sphase = if x = [] then q.sphase else .down) ∧
  (∀ n q, q.smode ≠ .none → (squeezeMoreSeq n q).1.sphase = if n = 0 then q.sphase else .up)

/-! ## The sponge's commands -/

/-- R140: S.HASH completes in every SMODE: SST zero, HASH, UP; nothing else changes. -/
def Obligations.HashConstructsAnEmptySponge : Prop :=
  ∀ s : State, s.Ready → s.din = [] →
    exec .sHash s = .next { s with
      seq := { s.seq with sst := Lane.zero, smode := .hash, sphase := .up }
      din := [], dout := [], resp := 0x00000100 }

/-- R150: S.RELEASE completes in every SMODE: SST zero, NONE, UP; nothing else changes. -/
def Obligations.ReleaseDestroysTheSponge : Prop :=
  ∀ s : State, s.Ready → s.din = [] →
    exec .sRelease s = .next { s with
      seq := { s.seq with sst := Lane.zero, smode := .none, sphase := .up }
      din := [], dout := [], resp := 0x00000000 }

/-- R141: S.KEYED without a counter completes in every SMODE when the IV fits: SST holds key, id, nonce, their length byte,
the pad 0x01 and the domain 0x02 at byte 47, zeros elsewhere; KEYED, DOWN; no permutation. -/
def Obligations.KeyedAbsorbsItsIv : Prop :=
  ∀ (s : State) (klen idlen nlen : Nat), s.Ready → s.din.length = klen + idlen + nlen → klen + idlen + nlen ≤ 43 →
    ∃ v : Lane,
      exec (.sKeyed klen idlen nlen none) s = .next { s with
        seq := { s.seq with sst := v, smode := .keyed, sphase := .down }
        din := [], dout := [], resp := 0x00000600 } ∧
      ∀ k < 48, v.byte k =
        if k < s.din.length then s.din.getD k 0
        else if k = s.din.length then BitVec.ofNat 8 (idlen + nlen)
        else if k = s.din.length + 1 then 0x01 else if k = 47 then 0x02 else 0

/-- R141, R126: S.KEYED with a counter, empty or not, is S.KEYED without one, then the forced `Up(NONE, 0)`, then the counter
one byte at a time: the first, or none, by a Down with domain 0, every later one by `Up(NONE, 0)` and a Down with domain 0;
`max(1, LEN)` permutations. -/
def Obligations.KeyedAbsorbsItsCounterAtRateOne : Prop :=
  ∀ (s : State) (klen idlen nlen len : Nat), s.Ready → s.din.length = klen + idlen + nlen + len →
    klen + idlen + nlen ≤ 43 →
    ∃ (t : State) (q : Sequencer),
      exec (.sKeyed klen idlen nlen none) { s with din := s.din.take (klen + idlen + nlen) } = .next t ∧
      exec (.sKeyed klen idlen nlen (some len)) s = .next { s with
        seq := q, din := [], dout := [], resp := 0x00000600 } ∧
      q = (chunks (s.din.drop (klen + idlen + nlen)) 1).tail.foldl
        (fun q c => down (some c) 0x00 (up none 0x00 q).1)
        (down (chunks (s.din.drop (klen + idlen + nlen)) 1).head? 0x00 (up none 0x00 t.seq).1) ∧
      q.perms = s.seq.perms + max 1 len

/-- R142, R126: S.ABSORB completes in HASH and KEYED; SPHASE DOWN, the lanes and all else unchanged. With SPHASE DOWN it starts
with the forced `Up(NONE, 0)`, with SPHASE UP at once. The first chunk at the mode's rate, or none, goes in by a Down with
domain 0x03, every later one by `Up(NONE, 0)` and a Down with domain 0. A message of at most one chunk is XORed into the state
so reached, at offset 0 with its pad and domain. -/
def Obligations.AbsorbAbsorbsTheMessage : Prop :=
  ∀ (s : State) (len : Nat), s.Ready → s.seq.smode ≠ .none → s.din.length = len → ∃ q : Sequencer,
    exec (.sAbsorb len) s = .next { s with
      seq := q, din := [], dout := [], resp := statusWord false .none s.seq.smode .down } ∧
    q.smode = s.seq.smode ∧
    let start := if s.seq.sphase = .down then (up none 0x00 s.seq).1 else s.seq
    let parts := chunks s.din (if s.seq.smode = .hash then 16 else 44)
    q = parts.tail.foldl (fun q c => down (some c) 0x00 (up none 0x00 q).1) (down parts.head? 0x03 start) ∧
    (len ≤ (if s.seq.smode = .hash then 16 else 44) →
      q.perms = start.perms ∧ ∀ k < 48, q.sst.byte k = start.sst.byte k ^^^
        (if k < len then s.din.getD k 0 else if k = len then 0x01
         else if k = 47 then (if s.seq.smode = .hash then 0x01 else 0x03) else 0))

/-- R143: S.ABSORB_MORE completes in HASH and KEYED with every chunk absorbed by an Up and a Down; an empty message changes
nothing. -/
def Obligations.AbsorbMoreContinues : Prop :=
  ∀ (s : State) (len : Nat), s.Ready → s.seq.smode ≠ .none → s.din.length = len → ∃ q : Sequencer,
    exec (.sAbsorbMore len) s = .next { s with
      seq := q, din := [], dout := []
      resp := statusWord false .none s.seq.smode (if len = 0 then s.seq.sphase else .down) } ∧
    q = (chunks s.din (if s.seq.smode = .hash then 16 else 44)).foldl
      (fun q c => down (some c) 0x00 (up none 0x00 q).1) s.seq ∧
    (len = 0 → q = s.seq)

/-- R144: S.SQUEEZE completes in HASH and KEYED; its first chunk is the start of the state permuted after domain 0x40, every
later chunk follows an empty Down and an Up with domain 0; SPHASE UP. -/
def Obligations.SqueezeReturnsItsBytes : Prop :=
  ∀ (s : State) (len : Nat), s.Ready → s.seq.smode ≠ .none → s.din = [] → ∃ (q : Sequencer) (out : List Byte),
    exec (.sSqueeze len) s = .next { s with
      seq := q, din := [], dout := out, resp := statusWord false .none s.seq.smode .up } ∧
    out.length = len ∧
    (let rate := if s.seq.smode = .hash then 16 else 24
     let sizes := (List.range ((len + rate - 1) / rate)).map fun i => min rate (len - i * rate)
     (q, out) = sizes.tail.foldl
      (fun a z => ((up (some z) 0x00 (down none 0x00 a.1)).1, a.2 ++ (up (some z) 0x00 (down none 0x00 a.1)).2))
      (up sizes.head? 0x40 s.seq)) ∧
    (len ≤ (if s.seq.smode = .hash then 16 else 24) → (q, out) = up (some len) 0x40 s.seq)

/-- R145: S.SQUEEZE_MORE completes in HASH and KEYED; every chunk follows an empty Down and an Up with domain 0; a length of 0
changes nothing. -/
def Obligations.SqueezeMoreContinues : Prop :=
  ∀ (s : State) (len : Nat), s.Ready → s.seq.smode ≠ .none → s.din = [] → ∃ (q : Sequencer) (out : List Byte),
    exec (.sSqueezeMore len) s = .next { s with
      seq := q, din := [], dout := out
      resp := statusWord false .none s.seq.smode (if len = 0 then s.seq.sphase else .up) } ∧
    out.length = len ∧
    (let rate := if s.seq.smode = .hash then 16 else 24
     let sizes := (List.range ((len + rate - 1) / rate)).map fun i => min rate (len - i * rate)
     (q, out) = sizes.foldl
      (fun a z => ((up (some z) 0x00 (down none 0x00 a.1)).1, a.2 ++ (up (some z) 0x00 (down none 0x00 a.1)).2))
      (s.seq, [])) ∧
    (len = 0 → q = s.seq) ∧
    (0 < len → len ≤ (if s.seq.smode = .hash then 16 else 24) →
      (q, out) = up (some len) 0x00 (down none 0x00 s.seq))

/-- R146: S.SQUEEZE_KEY completes in KEYED as S.SQUEEZE does, with domain 0x20 in place of 0x40: every later chunk follows an
empty Down and an Up with domain 0. -/
def Obligations.SqueezeKeyReturnsItsBytes : Prop :=
  ∀ (s : State) (len : Nat), s.Ready → s.seq.smode = .keyed → s.din = [] → ∃ (q : Sequencer) (out : List Byte),
    exec (.sSqueezeKey len) s = .next { s with
      seq := q, din := [], dout := out, resp := statusWord false .none .keyed .up } ∧
    out.length = len ∧
    (let sizes := (List.range ((len + 23) / 24)).map fun i => min 24 (len - i * 24)
     (q, out) = sizes.tail.foldl
      (fun a z => ((up (some z) 0x00 (down none 0x00 a.1)).1, a.2 ++ (up (some z) 0x00 (down none 0x00 a.1)).2))
      (up sizes.head? 0x20 s.seq)) ∧
    (len ≤ 24 → (q, out) = up (some len) 0x20 s.seq)

/-- R147, R157: S.RATCHET completes in KEYED: one permutation after domain 0x10, then bytes 0 to 15 are zero, byte 16 is its
permuted value XOR 0x01, the others their permuted values; DOUT is empty; T is zero-filled; SPHASE DOWN. -/
def Obligations.RatchetForgetsTheFirstBytes : Prop :=
  ∀ s : State, s.Ready → s.seq.smode = .keyed → s.din = [] → ∃ v w : Lane,
    exec .sRatchet s = .next { s with
      seq := { s.seq with
        sst := w, sphase := .down, tbuf := List.replicate 16 0, perms := s.seq.perms + 1 }
      din := [], dout := [], resp := 0x00000600 } ∧
    (∀ k < 48, v.byte k = s.seq.sst.byte k ^^^ (if k = 47 then 0x10 else 0)) ∧
    ∀ k < 48, w.byte k =
      if k < 16 then 0 else if k = 16 then (xoodoo 12 v).byte 16 ^^^ 0x01 else (xoodoo 12 v).byte k

/-- R148: S.ENCRYPT completes in KEYED for every message. Block by block of 24 bytes (one empty block for the empty message),
the keystream is an Up with domain 0x80 on the first block and 0 on every later one, each from the state the block before
left, the plaintext is absorbed by a Down with domain 0, and DOUT is plaintext XOR keystream. A message of at most 24 bytes, the empty one included, is one block: the
keystream is the start of the state permuted after domain 0x80, DOUT is plaintext XOR keystream, and SST then starts with
the ciphertext, with the pad 0x01 after it; K is zero-filled; SPHASE DOWN. -/
def Obligations.EncryptXorsTheKeystream : Prop :=
  ∀ (s : State) (len : Nat), s.Ready → s.seq.smode = .keyed → s.din.length = len →
    ∃ (q : Sequencer) (out : List Byte),
      exec (.sEncrypt len) s = .next { s with
        seq := q, din := [], dout := out, resp := 0x00000600 } ∧
      out.length = len ∧ q.smode = .keyed ∧ q.sphase = .down ∧ q.kbuf = List.replicate 24 0 ∧
      q.tbuf = s.seq.tbuf ∧ q.perms = s.seq.perms + max 1 ((len + 23) / 24) ∧
      (let block := fun (cu : Byte) (a : Sequencer × List Byte) (p : List Byte) =>
        let k := up (some p.length) cu a.1
        (down (some p) 0x00 k.1, a.2 ++ List.zipWith (· ^^^ ·) p k.2)
       let r := (chunks s.din 24).tail.foldl (block 0x00) (block 0x80 (s.seq, []) ((chunks s.din 24).headD []))
       q = { r.1 with kbuf := List.replicate 24 0 } ∧ out = r.2) ∧
      (len ≤ 24 → ∃ v : Lane, (∀ k < 48, v.byte k = s.seq.sst.byte k ^^^ (if k = 47 then 0x80 else 0)) ∧
        (∀ k < len, out.getD k 0 = s.din.getD k 0 ^^^ (xoodoo 12 v).byte k) ∧
        ∀ k < 48, q.sst.byte k =
          if k < len then out.getD k 0 else if k = len then (xoodoo 12 v).byte k ^^^ 0x01
          else (xoodoo 12 v).byte k)

/-- R149: S.DECRYPT completes in KEYED for every ciphertext. Block by block of 24 bytes (one empty block for the empty
ciphertext), the keystream is an Up with domain 0x80 on the first block and 0 on every later one, each from the state the
block before left, the plaintext is ciphertext XOR keystream, and it is absorbed by a Down with domain 0. One of at most 24 bytes is one block: DOUT is ciphertext XOR
keystream, and SST then starts with the ciphertext, as the encryptor's does; K is zero-filled; SPHASE DOWN. -/
def Obligations.DecryptRecoversThenAbsorbs : Prop :=
  ∀ (s : State) (len : Nat), s.Ready → s.seq.smode = .keyed → s.din.length = len →
    ∃ (q : Sequencer) (out : List Byte),
      exec (.sDecrypt len) s = .next { s with
        seq := q, din := [], dout := out, resp := 0x00000600 } ∧
      out.length = len ∧ q.smode = .keyed ∧ q.sphase = .down ∧ q.kbuf = List.replicate 24 0 ∧
      q.tbuf = s.seq.tbuf ∧ q.perms = s.seq.perms + max 1 ((len + 23) / 24) ∧
      (let block := fun (cu : Byte) (a : Sequencer × List Byte) (x : List Byte) =>
        let k := up (some x.length) cu a.1
        let p := List.zipWith (· ^^^ ·) x k.2
        (down (some p) 0x00 k.1, a.2 ++ p)
       let r := (chunks s.din 24).tail.foldl (block 0x00) (block 0x80 (s.seq, []) ((chunks s.din 24).headD []))
       q = { r.1 with kbuf := List.replicate 24 0 } ∧ out = r.2) ∧
      (len ≤ 24 → ∃ v : Lane, (∀ k < 48, v.byte k = s.seq.sst.byte k ^^^ (if k = 47 then 0x80 else 0)) ∧
        (∀ k < len, out.getD k 0 = s.din.getD k 0 ^^^ (xoodoo 12 v).byte k) ∧
        ∀ k < 48, q.sst.byte k =
          if k < len then s.din.getD k 0 else if k = len then (xoodoo 12 v).byte k ^^^ 0x01
          else (xoodoo 12 v).byte k)

/-! ## Whole-machine rules -/

/-- R156: from equal states, decrypting what encrypting a message gave returns the message and leaves the same sequencer
state, for every message; a following S.SQUEEZE of any length gives equal tags on both sides. -/
def Obligations.DecryptUndoesEncrypt : Prop :=
  ∀ (s : State) (len : Nat), s.Ready → s.seq.smode = .keyed → s.din.length = len →
    ∃ t u, exec (.sEncrypt len) s = .next t ∧ exec (.sDecrypt len) { s with din := t.dout } = .next u ∧
      u.dout = s.din ∧ u.seq = t.seq ∧
      ∀ n, ∃ a b, exec (.sSqueeze n) t = .next a ∧ exec (.sSqueeze n) u = .next b ∧ a.dout = b.dout

/-- R153: absorbing a message in one S.ABSORB, or its first bytes in S.ABSORB and the rest in S.ABSORB_MORE, gives the same
sequencer state when the first part is a positive multiple of the rate; and S.ABSORB_MORE splits at any multiple. -/
def Obligations.AbsorbChunkingInvariance : Prop :=
  ∀ (s : State) (x y : List Byte) (m : Nat), s.Ready → s.seq.smode ≠ .none →
    x.length = m * (if s.seq.smode = .hash then 16 else 44) →
    (0 < m → ∃ t u w, exec (.sAbsorb x.length) { s with din := x } = .next t ∧
      exec (.sAbsorbMore y.length) { t with din := y } = .next u ∧
      exec (.sAbsorb (x ++ y).length) { s with din := x ++ y } = .next w ∧ w.seq = u.seq) ∧
    (∃ t u w, exec (.sAbsorbMore x.length) { s with din := x } = .next t ∧
      exec (.sAbsorbMore y.length) { t with din := y } = .next u ∧
      exec (.sAbsorbMore (x ++ y).length) { s with din := x ++ y } = .next w ∧ w.seq = u.seq)

/-- R154: S.SQUEEZE n1 and then S.SQUEEZE_MORE n2 give the output and the end state of S.SQUEEZE (n1 + n2), when n1 is a
positive multiple of the rate. -/
def Obligations.SqueezeChunkingInvariance : Prop :=
  ∀ (s : State) (n1 n2 m : Nat), s.Ready → s.seq.smode ≠ .none → s.din = [] → 0 < m →
    n1 = m * (if s.seq.smode = .hash then 16 else 24) →
    ∃ t u w, exec (.sSqueeze n1) s = .next t ∧ exec (.sSqueezeMore n2) t = .next u ∧
      exec (.sSqueeze (n1 + n2)) s = .next w ∧ w.dout = t.dout ++ u.dout ∧ w.seq = u.seq

/-- R15: a step changes SMODE only when it performs S.HASH, S.KEYED or S.RELEASE, or is reset, and then to HASH, KEYED, NONE
and NONE. -/
def Obligations.ModeChangesInFourWaysOnly : Prop :=
  ∀ s t : State, step s = .next t → t.seq.smode ≠ s.seq.smode →
    (∃ rest, s.pending = .reset :: rest ∧ t.seq.smode = .none) ∨
    (∃ tr rest, s.pending = .issue tr :: rest ∧
      (decode tr.cmd tr.len = .ok .sHash ∧ t.seq.smode = .hash ∨
        (∃ k d n c, decode tr.cmd tr.len = .ok (.sKeyed k d n c)) ∧ t.seq.smode = .keyed ∨
        decode tr.cmd tr.len = .ok .sRelease ∧ t.seq.smode = .none))

/-- R151: SPHASE after each command that succeeds. -/
def Obligations.PhaseAfterEachCommand : Prop :=
  ∀ (i : Instr) (s t : State), s.Ready → exec i s = .next t → t.fault = false →
    t.seq.sphase =
      match i with
      | .sHash | .sRelease | .sSqueeze _ | .sSqueezeKey _ => .up
      | .sKeyed _ _ _ _ | .sAbsorb _ | .sRatchet | .sEncrypt _ | .sDecrypt _ => .down
      | .sAbsorbMore len => if 0 < len then .down else s.seq.sphase
      | .sSqueezeMore len => if 0 < len then .up else s.seq.sphase
      | .rdStatus | .rdConfig | .ePermute | .eAdd _ _ _ | .eExtract _ _ | .eZeroize => s.seq.sphase

/-- R155: the permutations of SST each command performs that succeeds (the model counts them, log entry 8); a command that
faults performs none. -/
def Obligations.PermutationCountOfEachCommand : Prop :=
  ∀ (i : Instr) (s t : State), s.Ready → exec i s = .next t →
    t.seq.perms = s.seq.perms +
      if t.fault then 0
      else match i with
        | .rdStatus | .rdConfig | .ePermute | .eAdd _ _ _ | .eExtract _ _ | .eZeroize | .sHash | .sRelease => 0
        | .sKeyed _ _ _ none => 0
        | .sKeyed _ _ _ (some len) => max 1 len
        | .sAbsorb len => (if s.seq.sphase = .down then 1 else 0) +
            ((if s.seq.smode = .hash then (len + 15) / 16 else (len + 43) / 44) - 1)
        | .sAbsorbMore len => if s.seq.smode = .hash then (len + 15) / 16 else (len + 43) / 44
        | .sSqueeze len | .sSqueezeKey len => max 1 (if s.seq.smode = .hash then (len + 15) / 16 else (len + 23) / 24)
        | .sSqueezeMore len => if s.seq.smode = .hash then (len + 15) / 16 else (len + 23) / 24
        | .sRatchet => 1
        | .sEncrypt len | .sDecrypt len => max 1 ((len + 23) / 24)

/-- R12, R23: no register read and no engine command touches the sequencer, and no sponge command touches a lane; no command
changes N or R (R20). -/
def Obligations.EngineAndSpongeAreSeparate : Prop :=
  ∀ (i : Instr) (s t : State), exec i s = .next t →
    t.rounds = s.rounds ∧ t.lanes.length = s.lanes.length ∧ t.pending = s.pending ∧
    match i with
    | .rdStatus | .rdConfig | .eExtract _ _ => t.seq = s.seq ∧ t.lanes = s.lanes
    | .ePermute | .eAdd _ _ _ | .eZeroize => t.seq = s.seq
    | .sHash | .sKeyed _ _ _ _ | .sAbsorb _ | .sAbsorbMore _ | .sSqueeze _ | .sSqueezeMore _ | .sSqueezeKey _
    | .sRatchet | .sEncrypt _ | .sDecrypt _ | .sRelease => t.lanes = s.lanes

/-- R12, R43: what a register read, an engine command, a construction or a release returns and writes outside the sequencer
does not depend on SST: two blocks that differ in SST alone give the same DOUT, RESP, lanes and fault. -/
def Obligations.EngineCommandsCannotSeeTheSponge : Prop :=
  ∀ (i : Instr) (s t : State) (secret : Lane), needsSponge i = false → exec i s = .next t →
    ∃ t', exec i { s with seq := { s.seq with sst := secret } } = .next t' ∧
      t'.dout = t.dout ∧ t'.resp = t.resp ∧ t'.lanes = t.lanes ∧ t'.fault = t.fault ∧ t'.cause = t.cause

/-- The invariant of the block between transactions: legal N and R (R5, R6, R20), CAUSE NONE exactly when FAULT is 0 (R16),
nothing in SST when no sponge is constructed (R13, R150), the internal buffers zero-filled (R203), RESP equal to STATUS
(R60) and no transaction in progress (R21): every step keeps it. Over a reset step, the zeros in K and T, RESP equal to STATUS
and the empty `din` are the model's chosen reset values (log entries 7, 3 and 5), not the rules'. -/
def Obligations.EveryStepKeepsTheInvariant : Prop :=
  ∀ s t : State, s.Inv → step s = .next t → t.Inv

/-- The state after reset meets the invariant, for every legal N and R, the default build among them. What it says of the
architectural state is R22's; the default build, RESP, the empty `din` and the zeros in K and T are the model's choices (log
entries 1, 3, 5 and 7). -/
def Obligations.ResetMeetsTheInvariant : Prop :=
  State.reset.Inv ∧ ∀ n r : Nat, Config.LegalLanes n → Config.LegalRounds r → (State.afterReset n r).Inv
end

