-- ==== Sys2Proof/Laws/State.lean ====
section
/-! SUPPORT. Sys2Proof/Laws/State.lean: one lemma per field per update, so that no proof unfolds a record update. -/

namespace Sys2Proof.Machine

/-! ### The response, a fault, a refusal, a lane write, reset -/

@[simp] theorem respond_lanes (out : List Byte) (s : State) : (respond out s).lanes = s.lanes := rfl
@[simp] theorem respond_rounds (out : List Byte) (s : State) : (respond out s).rounds = s.rounds := rfl
@[simp] theorem respond_seq (out : List Byte) (s : State) : (respond out s).seq = s.seq := rfl
@[simp] theorem respond_fault (out : List Byte) (s : State) : (respond out s).fault = s.fault := rfl
@[simp] theorem respond_cause (out : List Byte) (s : State) : (respond out s).cause = s.cause := rfl
@[simp] theorem respond_pending (out : List Byte) (s : State) : (respond out s).pending = s.pending := rfl
@[simp] theorem respond_din (out : List Byte) (s : State) : (respond out s).din = [] := rfl
@[simp] theorem respond_dout (out : List Byte) (s : State) : (respond out s).dout = out := rfl
@[simp] theorem respond_resp (out : List Byte) (s : State) : (respond out s).resp = status s := rfl

@[simp] theorem raiseFault_lanes (c : Cause) (s : State) : (raiseFault c s).lanes = s.lanes := rfl
@[simp] theorem raiseFault_rounds (c : Cause) (s : State) : (raiseFault c s).rounds = s.rounds := rfl
@[simp] theorem raiseFault_seq (c : Cause) (s : State) : (raiseFault c s).seq = s.seq := rfl
@[simp] theorem raiseFault_fault (c : Cause) (s : State) : (raiseFault c s).fault = true := rfl
@[simp] theorem raiseFault_cause (c : Cause) (s : State) : (raiseFault c s).cause = c := rfl
@[simp] theorem raiseFault_pending (c : Cause) (s : State) : (raiseFault c s).pending = s.pending := rfl
@[simp] theorem raiseFault_din (c : Cause) (s : State) : (raiseFault c s).din = [] := rfl
@[simp] theorem raiseFault_dout (c : Cause) (s : State) : (raiseFault c s).dout = [] := rfl
@[simp] theorem raiseFault_resp (c : Cause) (s : State) : (raiseFault c s).resp = statusWord true c s.seq.smode s.seq.sphase := rfl

@[simp] theorem refuse_lanes (s : State) : (refuse s).lanes = s.lanes := rfl
@[simp] theorem refuse_rounds (s : State) : (refuse s).rounds = s.rounds := rfl
@[simp] theorem refuse_seq (s : State) : (refuse s).seq = s.seq := rfl
@[simp] theorem refuse_fault (s : State) : (refuse s).fault = s.fault := rfl
@[simp] theorem refuse_cause (s : State) : (refuse s).cause = s.cause := rfl
@[simp] theorem refuse_pending (s : State) : (refuse s).pending = s.pending := rfl
@[simp] theorem refuse_din (s : State) : (refuse s).din = [] := rfl
@[simp] theorem refuse_dout (s : State) : (refuse s).dout = [] := rfl
@[simp] theorem refuse_resp (s : State) : (refuse s).resp = status s := rfl

@[simp] theorem setLane_lanes (s : State) (l : Nat) (v : Lane) : (s.setLane l v).lanes = s.lanes.set l v := rfl
@[simp] theorem setLane_rounds (s : State) (l : Nat) (v : Lane) : (s.setLane l v).rounds = s.rounds := rfl
@[simp] theorem setLane_seq (s : State) (l : Nat) (v : Lane) : (s.setLane l v).seq = s.seq := rfl
@[simp] theorem setLane_fault (s : State) (l : Nat) (v : Lane) : (s.setLane l v).fault = s.fault := rfl
@[simp] theorem setLane_cause (s : State) (l : Nat) (v : Lane) : (s.setLane l v).cause = s.cause := rfl
@[simp] theorem setLane_pending (s : State) (l : Nat) (v : Lane) : (s.setLane l v).pending = s.pending := rfl
@[simp] theorem setLane_din (s : State) (l : Nat) (v : Lane) : (s.setLane l v).din = s.din := rfl
@[simp] theorem setLane_dout (s : State) (l : Nat) (v : Lane) : (s.setLane l v).dout = s.dout := rfl
@[simp] theorem setLane_resp (s : State) (l : Nat) (v : Lane) : (s.setLane l v).resp = s.resp := rfl

@[simp] theorem doReset_lanes (s : State) : (s.doReset).lanes = List.replicate s.nLanes Lane.zero := rfl
@[simp] theorem doReset_rounds (s : State) : (s.doReset).rounds = s.rounds := rfl
@[simp] theorem doReset_seq (s : State) : (s.doReset).seq = Sequencer.reset := rfl
@[simp] theorem doReset_fault (s : State) : (s.doReset).fault = false := rfl
@[simp] theorem doReset_cause (s : State) : (s.doReset).cause = .none := rfl
@[simp] theorem doReset_pending (s : State) : (s.doReset).pending = s.pending := rfl
@[simp] theorem doReset_din (s : State) : (s.doReset).din = [] := rfl
@[simp] theorem doReset_dout (s : State) : (s.doReset).dout = [] := rfl
@[simp] theorem doReset_resp (s : State) : (s.doReset).resp = 0 := rfl

@[simp] theorem respond_status (out : List Byte) (s : State) : status (respond out s) = status s := rfl
@[simp] theorem respond_nLanes (out : List Byte) (s : State) : (respond out s).nLanes = s.nLanes := rfl
@[simp] theorem raiseFault_nLanes (c : Cause) (s : State) : (raiseFault c s).nLanes = s.nLanes := rfl
@[simp] theorem refuse_nLanes (s : State) : (refuse s).nLanes = s.nLanes := rfl

/-! ### The sequencer -/

@[simp] theorem permute_sst (q : Sequencer) : (q.permute).sst = xoodoo 12 q.sst := rfl
@[simp] theorem permute_smode (q : Sequencer) : (q.permute).smode = q.smode := rfl
@[simp] theorem permute_sphase (q : Sequencer) : (q.permute).sphase = q.sphase := rfl
@[simp] theorem permute_kbuf (q : Sequencer) : (q.permute).kbuf = q.kbuf := rfl
@[simp] theorem permute_tbuf (q : Sequencer) : (q.permute).tbuf = q.tbuf := rfl
@[simp] theorem permute_perms (q : Sequencer) : (q.permute).perms = q.perms + 1 := rfl

@[simp] theorem xorAt_sst (q : Sequencer) (k : Nat) (x : List Byte) : (q.xorAt k x).sst = xorBytes q.sst k x := rfl
@[simp] theorem xorAt_smode (q : Sequencer) (k : Nat) (x : List Byte) : (q.xorAt k x).smode = q.smode := rfl
@[simp] theorem xorAt_sphase (q : Sequencer) (k : Nat) (x : List Byte) : (q.xorAt k x).sphase = q.sphase := rfl
@[simp] theorem xorAt_kbuf (q : Sequencer) (k : Nat) (x : List Byte) : (q.xorAt k x).kbuf = q.kbuf := rfl
@[simp] theorem xorAt_tbuf (q : Sequencer) (k : Nat) (x : List Byte) : (q.xorAt k x).tbuf = q.tbuf := rfl
@[simp] theorem xorAt_perms (q : Sequencer) (k : Nat) (x : List Byte) : (q.xorAt k x).perms = q.perms := rfl

@[simp] theorem loadK_sst (q : Sequencer) (x : List Byte) : (q.loadK x).sst = q.sst := rfl
@[simp] theorem loadK_smode (q : Sequencer) (x : List Byte) : (q.loadK x).smode = q.smode := rfl
@[simp] theorem loadK_sphase (q : Sequencer) (x : List Byte) : (q.loadK x).sphase = q.sphase := rfl
@[simp] theorem loadK_kbuf (q : Sequencer) (x : List Byte) : (q.loadK x).kbuf = fillBuf kBufBytes x := rfl
@[simp] theorem loadK_tbuf (q : Sequencer) (x : List Byte) : (q.loadK x).tbuf = q.tbuf := rfl
@[simp] theorem loadK_perms (q : Sequencer) (x : List Byte) : (q.loadK x).perms = q.perms := rfl

@[simp] theorem wipeK_sst (q : Sequencer) : (q.wipeK).sst = q.sst := rfl
@[simp] theorem wipeK_smode (q : Sequencer) : (q.wipeK).smode = q.smode := rfl
@[simp] theorem wipeK_sphase (q : Sequencer) : (q.wipeK).sphase = q.sphase := rfl
@[simp] theorem wipeK_kbuf (q : Sequencer) : (q.wipeK).kbuf = List.replicate kBufBytes 0 := rfl
@[simp] theorem wipeK_tbuf (q : Sequencer) : (q.wipeK).tbuf = q.tbuf := rfl
@[simp] theorem wipeK_perms (q : Sequencer) : (q.wipeK).perms = q.perms := rfl

@[simp] theorem loadT_sst (q : Sequencer) (x : List Byte) : (q.loadT x).sst = q.sst := rfl
@[simp] theorem loadT_smode (q : Sequencer) (x : List Byte) : (q.loadT x).smode = q.smode := rfl
@[simp] theorem loadT_sphase (q : Sequencer) (x : List Byte) : (q.loadT x).sphase = q.sphase := rfl
@[simp] theorem loadT_kbuf (q : Sequencer) (x : List Byte) : (q.loadT x).kbuf = q.kbuf := rfl
@[simp] theorem loadT_tbuf (q : Sequencer) (x : List Byte) : (q.loadT x).tbuf = fillBuf tBufBytes x := rfl
@[simp] theorem loadT_perms (q : Sequencer) (x : List Byte) : (q.loadT x).perms = q.perms := rfl

@[simp] theorem wipeT_sst (q : Sequencer) : (q.wipeT).sst = q.sst := rfl
@[simp] theorem wipeT_smode (q : Sequencer) : (q.wipeT).smode = q.smode := rfl
@[simp] theorem wipeT_sphase (q : Sequencer) : (q.wipeT).sphase = q.sphase := rfl
@[simp] theorem wipeT_kbuf (q : Sequencer) : (q.wipeT).kbuf = q.kbuf := rfl
@[simp] theorem wipeT_tbuf (q : Sequencer) : (q.wipeT).tbuf = List.replicate tBufBytes 0 := rfl
@[simp] theorem wipeT_perms (q : Sequencer) : (q.wipeT).perms = q.perms := rfl

@[simp] theorem startSponge_sst (m : SMode) (q : Sequencer) : (startSponge m q).sst = Lane.zero := rfl
@[simp] theorem startSponge_smode (m : SMode) (q : Sequencer) : (startSponge m q).smode = m := rfl
@[simp] theorem startSponge_sphase (m : SMode) (q : Sequencer) : (startSponge m q).sphase = .up := rfl
@[simp] theorem startSponge_kbuf (m : SMode) (q : Sequencer) : (startSponge m q).kbuf = q.kbuf := rfl
@[simp] theorem startSponge_tbuf (m : SMode) (q : Sequencer) : (startSponge m q).tbuf = q.tbuf := rfl
@[simp] theorem startSponge_perms (m : SMode) (q : Sequencer) : (startSponge m q).perms = q.perms := rfl

end Sys2Proof.Machine
end

