-- ==== Sys2Proof/Laws/Ops.lean ====
section
/-! SUPPORT. Sys2Proof/Laws/Ops.lean: what each shared operation does, said once: the byte view and its accesses (R31 to
R34), the checks (R181), the frame of every command (R67, R182, R183), the cutting of DIN (R9). Proofs cite these
instead of unfolding the operations. -/

namespace Sys2Proof.Machine

/-! ### Bytes and words -/

theorem wordByte_wordOfBytes (b0 b1 b2 b3 : Byte) :
    wordByte (wordOfBytes b0 b1 b2 b3) 0 = b0 ∧ wordByte (wordOfBytes b0 b1 b2 b3) 1 = b1 ∧
    wordByte (wordOfBytes b0 b1 b2 b3) 2 = b2 ∧ wordByte (wordOfBytes b0 b1 b2 b3) 3 = b3 := by
  unfold wordByte wordOfBytes
  refine ⟨?_, ?_, ?_, ?_⟩ <;> ext i hi <;> simp <;> grind

theorem wordOfBytes_wordByte (w : Word) :
    wordOfBytes (wordByte w 0) (wordByte w 1) (wordByte w 2) (wordByte w 3) = w := by
  unfold wordByte wordOfBytes
  ext i hi
  simp
  grind

/-- Four bytes carry a word (R66). -/
theorem length_wordBytes (w : Word) : (wordBytes w).length = 4 := rfl

/-- What the transport carries back is what was answered, whatever the length of DOUT (R66). -/
theorem readResponse_responseBytes (dout : List Byte) (resp : Word) :
    readResponse (responseBytes dout resp) = some (dout, resp) := by
  have hl : (responseBytes dout resp).length - 4 = dout.length := by
    rw [responseBytes, List.length_append, length_wordBytes, Nat.add_sub_cancel]
  unfold readResponse
  rw [hl, responseBytes, List.drop_left, List.take_left]
  exact congrArg (fun w => some (dout, w)) (wordOfBytes_wordByte resp)

/-- Reading a word of a state built word by word. -/
theorem word_ofWords (f : Nat → Word) {w : Nat} (h : w < 12) : (Lane.ofWords f).word w = f w := by
  interval_cases w <;> rfl

/-- Twelve words determine a 12-word state. -/
theorem Lane.ext_word {s t : Lane} (h : ∀ w < 12, s.word w = t.word w) : s = t := by
  obtain ⟨⟨_, _, _, _⟩, ⟨_, _, _, _⟩, ⟨_, _, _, _⟩⟩ := s
  obtain ⟨⟨_, _, _, _⟩, ⟨_, _, _, _⟩, ⟨_, _, _, _⟩⟩ := t
  have h0 := h 0 (by decide); have h1 := h 1 (by decide); have h2 := h 2 (by decide); have h3 := h 3 (by decide)
  have h4 := h 4 (by decide); have h5 := h 5 (by decide); have h6 := h 6 (by decide); have h7 := h 7 (by decide)
  have h8 := h 8 (by decide); have h9 := h 9 (by decide); have h10 := h 10 (by decide); have h11 := h 11 (by decide)
  simp only [Lane.word] at h0 h1 h2 h3 h4 h5 h6 h7 h8 h9 h10 h11
  simp [*]

/-- Reading a byte of a state built byte by byte. -/
theorem byte_ofBytes (f : Nat → Byte) {k : Nat} (h : k < 48) : (Lane.ofBytes f).byte k = f k := by
  have hw : k / 4 < 12 := by omega
  unfold Lane.byte Lane.ofBytes
  rw [word_ofWords _ hw]
  obtain ⟨e0, e1, e2, e3⟩ := wordByte_wordOfBytes (f (4 * (k / 4))) (f (4 * (k / 4) + 1)) (f (4 * (k / 4) + 2))
    (f (4 * (k / 4) + 3))
  have hj : k % 4 = 0 ∨ k % 4 = 1 ∨ k % 4 = 2 ∨ k % 4 = 3 := by omega
  rcases hj with hj | hj | hj | hj <;> simp only [*] <;> congr 1 <;> omega

/-- `memWrite` at one byte (R33): the written value inside the range, the old value outside. -/
theorem byte_memWrite (s : Lane) (k : Nat) (v : List Byte) {m : Nat} (h : m < 48) :
    (memWrite s k v).byte m = if k ≤ m ∧ m < k + v.length then v.getD (m - k) 0 else s.byte m :=
  byte_ofBytes _ h

theorem length_memRead (s : Lane) (k n : Nat) : (memRead s k n).length = n := by simp [memRead]

theorem getD_memRead (s : Lane) (k : Nat) {n i : Nat} (h : i < n) : (memRead s k n).getD i 0 = s.byte (k + i) := by
  simp [memRead, h]

theorem length_xorSeq (x y : List Byte) : (xorSeq x y).length = min x.length y.length := by simp [xorSeq]

theorem getD_xorSeq (x y : List Byte) (h : x.length = y.length) (i : Nat) :
    (xorSeq x y).getD i 0 = x.getD i 0 ^^^ y.getD i 0 := by
  unfold xorSeq
  simp only [List.getD_eq_getElem?_getD, List.getElem?_zipWith]
  by_cases hi : i < x.length
  · simp [hi, h ▸ hi]
  · simp [hi, h ▸ hi]

/-- XOR with the same sequence twice changes nothing. -/
theorem xorSeq_xorSeq_self (x k : List Byte) (h : x.length = k.length) : xorSeq (xorSeq x k) k = x := by
  induction x generalizing k with
  | nil => simp [xorSeq]
  | cons b x ih =>
    cases k with
    | nil => simp at h
    | cons c k =>
      have := ih k (by simpa using h)
      simp only [xorSeq, List.zipWith_cons_cons, List.cons.injEq] at this ⊢
      exact ⟨by rw [BitVec.xor_assoc]; simp, this⟩

/-- `xorBytes` at one byte (R34). -/
theorem byte_xorBytes (s : Lane) (k : Nat) (x : List Byte) {m : Nat} (h : m < 48) :
    (xorBytes s k x).byte m =
      if k ≤ m ∧ m < k + x.length then s.byte m ^^^ x.getD (m - k) 0 else s.byte m := by
  unfold xorBytes
  have hl : (memRead s k x.length).length = x.length := length_memRead ..
  rw [byte_memWrite _ _ _ h, length_xorSeq, hl, Nat.min_self]
  split
  · next hm =>
    rw [getD_xorSeq _ _ hl, getD_memRead s k (by omega : m - k < x.length)]
    congr 2
    omega
  · rfl

/-- Forty-eight bytes determine a 12-word state (R36). -/
theorem Lane.ext_byte {s t : Lane} (h : ∀ k < 48, s.byte k = t.byte k) : s = t := by
  apply Lane.ext_word
  intro w hw
  have key : ∀ j < 4, wordByte (s.word w) j = wordByte (t.word w) j := by
    intro j hj
    have := h (4 * w + j) (by omega)
    unfold Lane.byte at this
    rwa [show (4 * w + j) / 4 = w by omega, show (4 * w + j) % 4 = j by omega] at this
  rw [← wordOfBytes_wordByte (s.word w), ← wordOfBytes_wordByte (t.word w), key 0 (by decide), key 1 (by decide),
    key 2 (by decide), key 3 (by decide)]

/-- Equal byte reads of 48 bytes are equal states. -/
theorem memRead_eq_iff (s t : Lane) (k n : Nat) :
    memRead s k n = memRead t k n ↔ ∀ i < n, s.byte (k + i) = t.byte (k + i) := by
  unfold memRead
  simp

/-! ### Checks and the frame of a command -/

/-- With no condition holding, no cause; otherwise the first one's (R181). -/
theorem firstCause_cons (b : Bool) (c : Cause) (r : List (Bool × Cause)) :
    firstCause ((b, c) :: r) = if b then c else firstCause r := rfl

/-- Every command ends in a next state (R67). -/
theorem runCommand_next (i : Instr) (f : State → State × List Byte) (s : State) :
    ∃ t, runCommand i f s = .next t := ⟨_, rfl⟩

/-- Without a fault and with every check passed, the command has its effect (R67). -/
theorem runCommand_passes {i : Instr} {f : State → State × List Byte} {s : State} (hf : s.fault = false)
    (hc : check i s = .none) : runCommand i f s = .next (respond (f s).2 (f s).1) := by
  simp [runCommand, hf, hc, complete]

/-- Without a fault and with a failing check, the command faults (R182). -/
theorem runCommand_faults {i : Instr} {f : State → State × List Byte} {s : State} (hf : s.fault = false)
    (hc : check i s ≠ .none) : runCommand i f s = .next (raiseFault (check i s) s) := by
  simp [runCommand, hf, hc]

/-- In the faulted state everything but a well-formed register read is refused (R183). -/
theorem runCommand_refuses {i : Instr} {f : State → State × List Byte} {s : State} (hf : s.fault = true)
    (hr : isRegisterRead i = false ∨ s.din ≠ []) : runCommand i f s = .next (refuse s) := by
  rcases hr with hr | hr <;> simp [runCommand, hf, hr]

/-- In the faulted state a well-formed register read runs (R183). -/
theorem runCommand_reads {i : Instr} {f : State → State × List Byte} {s : State} (hf : s.fault = true)
    (hr : isRegisterRead i = true) (hd : s.din = []) :
    runCommand i f s = .next (respond (f s).2 (f s).1) := by
  simp [runCommand, hf, hr, hd, complete]

/-- All a command can do: its effect, a fault, or a refusal (R67, R182, R183). -/
theorem runCommand_cases {i : Instr} {f : State → State × List Byte} {s t : State} (h : runCommand i f s = .next t) :
    (t = respond (f s).2 (f s).1 ∧
      (s.fault = false ∧ check i s = .none ∨ s.fault = true ∧ isRegisterRead i = true ∧ s.din = [])) ∨
    (t = raiseFault (check i s) s ∧ s.fault = false ∧ check i s ≠ .none) ∨
    (t = refuse s ∧ s.fault = true ∧ (isRegisterRead i = false ∨ s.din ≠ [])) := by
  simp only [runCommand, Host.Outcome.next.injEq] at h
  split at h
  · next hf =>
    split at h
    · next hr =>
      simp only [Bool.and_eq_true, List.isEmpty_iff] at hr
      exact .inl ⟨h.symm, .inr ⟨hf, hr⟩⟩
    · next hr =>
      simp only [Bool.and_eq_true, List.isEmpty_iff, not_and] at hr
      refine .inr (.inr ⟨h.symm, hf, ?_⟩)
      cases hi : isRegisterRead i
      · exact .inl rfl
      · exact .inr (hr hi)
  · next hf =>
    have hf : s.fault = false := by simpa using hf
    split at h
    · next hc => exact .inl ⟨h.symm, .inl ⟨hf, hc⟩⟩
    · next hc => exact .inr (.inl ⟨h.symm, hf, hc⟩)

/-- A sponge command is a command whose effect is `f` on the sequencer (R12). -/
theorem runSponge_passes {i : Instr} {f : List Byte → Sequencer → Sequencer × List Byte} {s : State}
    (hf : s.fault = false) (hc : check i s = .none) :
    runSponge i f s = .next (respond (f s.din s.seq).2 { s with seq := (f s.din s.seq).1 }) :=
  runCommand_passes hf hc

/-! ### Cutting byte sequences (R9) -/

theorem length_chunks (x : List Byte) (r : Nat) : (chunks x r).length = pieces x.length r := by simp [chunks]

theorem length_chunkSizes (n r : Nat) : (chunkSizes n r).length = pieces n r := by simp [chunkSizes]

theorem pieces_zero {r : Nat} (h : 0 < r) : pieces 0 r = 0 := by
  unfold pieces
  exact Nat.div_eq_of_lt (by omega)

theorem pieces_succ {n r : Nat} (hr : 0 < r) (hn : 0 < n) : pieces n r = pieces (n - r) r + 1 := by
  unfold pieces
  rcases Nat.lt_or_ge n r with h | h
  · rw [show n + r - 1 = n - 1 + r by omega, Nat.add_div_right _ hr, Nat.div_eq_of_lt (by omega),
      Nat.div_eq_of_lt (by omega)]
  · rw [← Nat.add_div_right _ hr]
    congr 1
    omega

/-- A positive multiple of the rate cuts off whole pieces. -/
theorem pieces_mul_add {r : Nat} (hr : 0 < r) (m n : Nat) : pieces (m * r + n) r = m + pieces n r := by
  unfold pieces
  rw [show m * r + n + r - 1 = n + r - 1 + m * r by omega, Nat.add_mul_div_right _ _ hr, Nat.add_comm]

theorem chunks_nil {r : Nat} (h : 0 < r) : chunks [] r = [] := by simp [chunks, pieces_zero h]

theorem chunks_cons {x : List Byte} {r : Nat} (hr : 0 < r) (hx : x ≠ []) :
    chunks x r = x.take r :: chunks (x.drop r) r := by
  have hn : 0 < x.length := List.length_pos_iff.mpr hx
  unfold chunks
  rw [pieces_succ hr hn, List.range_succ_eq_map]
  simp only [List.map_cons, Nat.zero_mul, List.drop_zero, List.map_map, List.length_drop, List.cons.injEq, true_and]
  apply List.map_congr_left
  intro i _
  simp only [Function.comp_apply, List.drop_drop]
  congr 2
  rw [Nat.succ_mul, Nat.add_comm]

theorem chunkSizes_zero {r : Nat} (h : 0 < r) : chunkSizes 0 r = [] := by simp [chunkSizes, pieces_zero h]

theorem chunkSizes_pos {n r : Nat} (hr : 0 < r) (hn : 0 < n) :
    chunkSizes n r = min r n :: chunkSizes (n - r) r := by
  unfold chunkSizes
  rw [pieces_succ hr hn, List.range_succ_eq_map]
  simp only [List.map_cons, Nat.zero_mul, Nat.sub_zero, List.map_map, List.cons.injEq, true_and]
  apply List.map_congr_left
  intro i _
  simp only [Function.comp_apply, Nat.succ_mul]
  congr 1
  omega

/-- The chunk sizes of a squeeze add up to its length. -/
theorem sum_chunkSizes {r : Nat} (hr : 0 < r) (n : Nat) : (chunkSizes n r).sum = n := by
  induction n using Nat.strong_induction_on with
  | _ n ih =>
    rcases Nat.eq_zero_or_pos n with h | h
    · subst h; simp [chunkSizes_zero hr]
    · rw [chunkSizes_pos hr h, List.sum_cons, ih (n - r) (by omega)]
      omega

/-- The pieces of a sequence, joined, are the sequence. -/
theorem flatten_chunks {r : Nat} (hr : 0 < r) (x : List Byte) : (chunks x r).flatten = x := by
  induction hn : x.length using Nat.strong_induction_on generalizing x with
  | _ n ih =>
    rcases x with _ | ⟨b, x⟩
    · simp [chunks_nil hr]
    · rw [chunks_cons hr (by simp), List.flatten_cons,
        ih _ (by rw [← hn]; simp; omega) ((b :: x).drop r) rfl, List.take_append_drop]

end Sys2Proof.Machine
end

