-- ==== Sys2Proof/Laws/PerInstr.lean ====
section
/-! SUPPORT. Sys2Proof/Laws/PerInstr.lean: statements about every command as syntax, one lemma per constructor.
`TableBits`: the encoding carries the bits its row of spec/opcode_table.json fixes. `OperandRanges`: a well-formed
command's operands fit their fields (R53 to R56). -/

namespace Sys2Proof.Laws.TableBits

/-- The encoded CMD matches the row of the opcode table that carries the command's mnemonic. -/
def Statement (i : Instr) : Prop :=
  ∃ row ∈ opcodeTable, row.mnemonic = i.mnemonic ∧ (encode i).1 &&& row.mask = row.value

theorem rdStatus : Statement .rdStatus :=
  ⟨⟨"RD_STATUS", 0x01, 0xFFFFFFFF⟩, by decide, rfl, (by decide : cmdPlain 0x01 &&& 0xFFFFFFFF = 0x01)⟩
theorem rdConfig : Statement .rdConfig :=
  ⟨⟨"RD_CONFIG", 0x02, 0xFFFFFFFF⟩, by decide, rfl, (by decide : cmdPlain 0x02 &&& 0xFFFFFFFF = 0x02)⟩
theorem ePermute : Statement .ePermute :=
  ⟨⟨"E.PERMUTE", 0x10, 0xFFFFFFFF⟩, by decide, rfl, (by decide : cmdPlain 0x10 &&& 0xFFFFFFFF = 0x10)⟩
theorem eAdd (lane off len : Nat) : Statement (.eAdd lane off len) := by
  refine ⟨⟨"E.ADD", 0x00000011, 0xFFC000FF⟩, by decide, rfl, ?_⟩
  have h : ∀ (a : BitVec 8) (b : BitVec 6), (0#10 ++ b ++ a ++ 0x11#8 : Word) &&& 0xFFC000FF = 0x00000011 := by
    decide +kernel
  exact h (BitVec.ofNat 8 lane) (BitVec.ofNat 6 off)
theorem eExtract (lane len : Nat) : Statement (.eExtract lane len) := by
  refine ⟨⟨"E.EXTRACT", 0x00000012, 0xFFFF00FF⟩, by decide, rfl, ?_⟩
  have h : ∀ a : BitVec 8, (0#10 ++ 0#6 ++ a ++ 0x12#8 : Word) &&& 0xFFFF00FF = 0x00000012 := by decide +kernel
  exact h (BitVec.ofNat 8 lane)
theorem eZeroize : Statement .eZeroize :=
  ⟨⟨"E.ZEROIZE", 0x13, 0xFFFFFFFF⟩, by decide, rfl, (by decide : cmdPlain 0x13 &&& 0xFFFFFFFF = 0x13)⟩
theorem sHash : Statement .sHash :=
  ⟨⟨"S.HASH", 0x20, 0xFFFFFFFF⟩, by decide, rfl, (by decide : cmdPlain 0x20 &&& 0xFFFFFFFF = 0x20)⟩
theorem sKeyed (klen idlen nlen : Nat) (ctr : Option Nat) : Statement (.sKeyed klen idlen nlen ctr) := by
  refine ⟨⟨"S.KEYED", 0x00000021, 0xF80000FF⟩, by decide, rfl, ?_⟩
  have h : ∀ v : BitVec 19, (0#5 ++ v ++ 0x21#8 : Word) &&& 0xF80000FF = 0x00000021 := by
    intro v
    ext i hi
    simp only [BitVec.getElem_and, BitVec.getElem_append]
    interval_cases i <;> simp
  have e := h (BitVec.ofBool ctr.isSome ++ BitVec.ofNat 6 nlen ++ BitVec.ofNat 6 idlen ++ BitVec.ofNat 6 klen)
  rw [← e]
  congr 1
  simp only [encode, cmdK]
  ext i hi
  simp only [BitVec.getElem_append]
  grind
theorem sAbsorb (len : Nat) : Statement (.sAbsorb len) :=
  ⟨⟨"S.ABSORB", 0x22, 0xFFFFFFFF⟩, by decide, rfl, (by decide : cmdPlain 0x22 &&& 0xFFFFFFFF = 0x22)⟩
theorem sAbsorbMore (len : Nat) : Statement (.sAbsorbMore len) :=
  ⟨⟨"S.ABSORB_MORE", 0x23, 0xFFFFFFFF⟩, by decide, rfl, (by decide : cmdPlain 0x23 &&& 0xFFFFFFFF = 0x23)⟩
theorem sSqueeze (len : Nat) : Statement (.sSqueeze len) :=
  ⟨⟨"S.SQUEEZE", 0x24, 0xFFFFFFFF⟩, by decide, rfl, (by decide : cmdPlain 0x24 &&& 0xFFFFFFFF = 0x24)⟩
theorem sSqueezeMore (len : Nat) : Statement (.sSqueezeMore len) :=
  ⟨⟨"S.SQUEEZE_MORE", 0x25, 0xFFFFFFFF⟩, by decide, rfl, (by decide : cmdPlain 0x25 &&& 0xFFFFFFFF = 0x25)⟩
theorem sSqueezeKey (len : Nat) : Statement (.sSqueezeKey len) :=
  ⟨⟨"S.SQUEEZE_KEY", 0x26, 0xFFFFFFFF⟩, by decide, rfl, (by decide : cmdPlain 0x26 &&& 0xFFFFFFFF = 0x26)⟩
theorem sRatchet : Statement .sRatchet :=
  ⟨⟨"S.RATCHET", 0x27, 0xFFFFFFFF⟩, by decide, rfl, (by decide : cmdPlain 0x27 &&& 0xFFFFFFFF = 0x27)⟩
theorem sEncrypt (len : Nat) : Statement (.sEncrypt len) :=
  ⟨⟨"S.ENCRYPT", 0x28, 0xFFFFFFFF⟩, by decide, rfl, (by decide : cmdPlain 0x28 &&& 0xFFFFFFFF = 0x28)⟩
theorem sDecrypt (len : Nat) : Statement (.sDecrypt len) :=
  ⟨⟨"S.DECRYPT", 0x29, 0xFFFFFFFF⟩, by decide, rfl, (by decide : cmdPlain 0x29 &&& 0xFFFFFFFF = 0x29)⟩
theorem sRelease : Statement .sRelease :=
  ⟨⟨"S.RELEASE", 0x2F, 0xFFFFFFFF⟩, by decide, rfl, (by decide : cmdPlain 0x2F &&& 0xFFFFFFFF = 0x2F)⟩

end Sys2Proof.Laws.TableBits

namespace Sys2Proof.Laws.OperandRanges

/-- A command's operands, each with its field's width (R53 to R56). -/
def operands : Instr → List (Nat × Nat)
  | .rdStatus | .rdConfig | .ePermute | .eZeroize | .sHash | .sRatchet | .sRelease => []
  | .eAdd lane off len => [(lane, 8), (off, 6), (len, 32)]
  | .eExtract lane len => [(lane, 8), (len, 32)]
  | .sKeyed klen idlen nlen ctr => [(klen, 6), (idlen, 6), (nlen, 6), (ctr.getD 0, 32)]
  | .sAbsorb len | .sAbsorbMore len | .sSqueeze len | .sSqueezeMore len | .sSqueezeKey len | .sEncrypt len
  | .sDecrypt len => [(len, 32)]

/-- Well-formed says exactly that every operand fits its field. -/
def Statement (i : Instr) : Prop := i.wellFormed = true ↔ ∀ o ∈ operands i, o.1 < 2 ^ o.2

theorem rdStatus : Statement .rdStatus := by simp [Statement, Instr.wellFormed, operands]
theorem rdConfig : Statement .rdConfig := by simp [Statement, Instr.wellFormed, operands]
theorem ePermute : Statement .ePermute := by simp [Statement, Instr.wellFormed, operands]
theorem eAdd (lane off len : Nat) : Statement (.eAdd lane off len) := by
  simp [Statement, Instr.wellFormed, operands, fits, and_assoc]
theorem eExtract (lane len : Nat) : Statement (.eExtract lane len) := by
  simp [Statement, Instr.wellFormed, operands, fits]
theorem eZeroize : Statement .eZeroize := by simp [Statement, Instr.wellFormed, operands]
theorem sHash : Statement .sHash := by simp [Statement, Instr.wellFormed, operands]
theorem sKeyed (klen idlen nlen : Nat) (ctr : Option Nat) : Statement (.sKeyed klen idlen nlen ctr) := by
  simp [Statement, Instr.wellFormed, operands, fits, and_assoc]
theorem sAbsorb (len : Nat) : Statement (.sAbsorb len) := by simp [Statement, Instr.wellFormed, operands, fits]
theorem sAbsorbMore (len : Nat) : Statement (.sAbsorbMore len) := by
  simp [Statement, Instr.wellFormed, operands, fits]
theorem sSqueeze (len : Nat) : Statement (.sSqueeze len) := by simp [Statement, Instr.wellFormed, operands, fits]
theorem sSqueezeMore (len : Nat) : Statement (.sSqueezeMore len) := by
  simp [Statement, Instr.wellFormed, operands, fits]
theorem sSqueezeKey (len : Nat) : Statement (.sSqueezeKey len) := by
  simp [Statement, Instr.wellFormed, operands, fits]
theorem sRatchet : Statement .sRatchet := by simp [Statement, Instr.wellFormed, operands]
theorem sEncrypt (len : Nat) : Statement (.sEncrypt len) := by simp [Statement, Instr.wellFormed, operands, fits]
theorem sDecrypt (len : Nat) : Statement (.sDecrypt len) := by simp [Statement, Instr.wellFormed, operands, fits]
theorem sRelease : Statement .sRelease := by simp [Statement, Instr.wellFormed, operands]

end Sys2Proof.Laws.OperandRanges
end

