-- ==== Sys2Proof/Laws/Sponge.lean ====
section
/-! SUPPORT. Sys2Proof/Laws/Sponge.lean: what the sequencer's primitives and loops do to each part of its state, said once
(R122, R123, R126 to R129, R132, R155). `Frame q q'` says that a loop left SMODE and the internal buffers alone. -/

namespace Sys2Proof.Machine

/-- SMODE and the internal buffers are as they were. -/
structure Frame (q q' : Sequencer) : Prop where
  smode : q'.smode = q.smode
  kbuf : q'.kbuf = q.kbuf
  tbuf : q'.tbuf = q.tbuf

theorem Frame.refl (q : Sequencer) : Frame q q := ⟨rfl, rfl, rfl⟩

theorem Frame.trans {q q' q'' : Sequencer} (h : Frame q q') (h' : Frame q' q'') : Frame q q'' :=
  ⟨h'.smode.trans h.smode, h'.kbuf.trans h.kbuf, h'.tbuf.trans h.tbuf⟩

/-! ### Primitives -/

/-- `Up` (R122) in one equation. -/
theorem up_state (n : Option Nat) (cu : Byte) (q : Sequencer) :
    (up n cu q).1 =
      { q with
        sphase := .up
        sst := xoodoo 12 (if q.smode = .keyed then xorBytes q.sst 47 [cu] else q.sst)
        perms := q.perms + 1 } := by
  unfold up
  by_cases h : q.smode = .keyed <;> simp [h, Sequencer.permute, Sequencer.xorAt]

/-- The bytes of `Up` (R122): the first `n` of the permuted state. -/
theorem up_output (n : Nat) (cu : Byte) (q : Sequencer) :
    (up (some n) cu q).2 = memRead (up (some n) cu q).1.sst 0 n := rfl

theorem up_output_none (cu : Byte) (q : Sequencer) : (up none cu q).2 = [] := rfl

theorem length_up_output (n : Nat) (cu : Byte) (q : Sequencer) : (up (some n) cu q).2.length = n := by
  rw [up_output, length_memRead]

/-- The state after `Up` does not depend on how much it extracts (R122). -/
theorem up_state_extent (n m : Option Nat) (cu : Byte) (q : Sequencer) : (up n cu q).1 = (up m cu q).1 := rfl

/-- `Down` (R123) in one equation. -/
theorem down_state (x : Option (List Byte)) (cd : Byte) (q : Sequencer) :
    down x cd q =
      { q with
        sphase := .down
        sst := xorBytes (xorBytes (xorBytes q.sst 0 (x.getD [])) (x.getD []).length [padByte]) 47
          [if q.smode = .hash then cd &&& 0x01 else cd] } := rfl

theorem up_frame (n : Option Nat) (cu : Byte) (q : Sequencer) : Frame q (up n cu q).1 := by
  rw [up_state]; exact ⟨rfl, rfl, rfl⟩

theorem down_frame (x : Option (List Byte)) (cd : Byte) (q : Sequencer) : Frame q (down x cd q) := ⟨rfl, rfl, rfl⟩

theorem up_sphase (n : Option Nat) (cu : Byte) (q : Sequencer) : (up n cu q).1.sphase = .up := by rw [up_state]
theorem up_perms (n : Option Nat) (cu : Byte) (q : Sequencer) : (up n cu q).1.perms = q.perms + 1 := by rw [up_state]
theorem down_sphase (x : Option (List Byte)) (cd : Byte) (q : Sequencer) : (down x cd q).sphase = .down := rfl
theorem down_perms (x : Option (List Byte)) (cd : Byte) (q : Sequencer) : (down x cd q).perms = q.perms := rfl

/-! ### Absorbing -/

theorem absorbStep_frame (q : Sequencer) (c : List Byte) : Frame q (absorbStep q c) :=
  (up_frame ..).trans (down_frame ..)

theorem absorbStep_sphase (q : Sequencer) (c : List Byte) : (absorbStep q c).sphase = .down := rfl

theorem absorbStep_perms (q : Sequencer) (c : List Byte) : (absorbStep q c).perms = q.perms + 1 := by
  rw [absorbStep, down_perms, up_perms]

/-- A run of continuation steps (R126, R128): one permutation a chunk, SPHASE as the last step leaves it. -/
theorem foldl_absorbStep (cs : List (List Byte)) (q : Sequencer) :
    Frame q (cs.foldl absorbStep q) ∧ (cs.foldl absorbStep q).perms = q.perms + cs.length ∧
      (cs.foldl absorbStep q).sphase = if cs = [] then q.sphase else .down := by
  induction cs generalizing q with
  | nil => exact ⟨Frame.refl q, rfl, rfl⟩
  | cons c cs ih =>
    obtain ⟨hf, hp, hs⟩ := ih (absorbStep q c)
    refine ⟨(absorbStep_frame q c).trans hf, ?_, ?_⟩
    · rw [List.foldl_cons, hp, absorbStep_perms, List.length_cons]; omega
    · rw [List.foldl_cons, hs, absorbStep_sphase]; simp

theorem forceUp_frame (q : Sequencer) : Frame q (forceUp q) := by
  unfold forceUp
  split
  · exact Frame.refl q
  · exact up_frame ..

theorem forceUp_perms (q : Sequencer) : (forceUp q).perms = q.perms + if q.sphase = .down then 1 else 0 := by
  unfold forceUp
  cases h : q.sphase <;> simp [up_perms]

/-- `AbsorbAny` (R126, R132): SPHASE is DOWN, and it performs the forced permutation and one per later chunk. -/
theorem absorbAny_facts (x : List Byte) (r : Nat) (cd : Byte) (q : Sequencer) :
    Frame q (absorbAny x r cd q) ∧ (absorbAny x r cd q).sphase = .down ∧
      (absorbAny x r cd q).perms = q.perms + (if q.sphase = .down then 1 else 0) + (pieces x.length r - 1) := by
  unfold absorbAny
  have hl := length_chunks x r
  split
  · next h =>
    rw [h] at hl
    refine ⟨(forceUp_frame q).trans (down_frame ..), rfl, ?_⟩
    rw [down_perms, forceUp_perms, ← hl]
    simp
  · next c cs h =>
    rw [h] at hl
    obtain ⟨hf, hp, hs⟩ := foldl_absorbStep cs (down (some c) cd (forceUp q))
    refine ⟨((forceUp_frame q).trans (down_frame ..)).trans hf, ?_, ?_⟩
    · rw [hs, down_sphase]; simp
    · rw [hp, down_perms, forceUp_perms, ← hl]; simp

/-! ### Squeezing -/

/-- The continuation blocks of a squeeze (R127, R129): one permutation a block, the outputs in order. -/
theorem squeezeBlocks_facts (zs : List Nat) (q : Sequencer) :
    Frame q (squeezeBlocks zs q).1 ∧ (squeezeBlocks zs q).1.perms = q.perms + zs.length ∧
      (squeezeBlocks zs q).1.sphase = (if zs = [] then q.sphase else .up) ∧
      (squeezeBlocks zs q).2.length = zs.sum := by
  induction zs generalizing q with
  | nil => exact ⟨Frame.refl q, rfl, rfl, rfl⟩
  | cons z zs ih =>
    obtain ⟨hf, hp, hs, hl⟩ := ih (up (some z) dZero (down none dZero q)).1
    refine ⟨((down_frame ..).trans (up_frame ..)).trans hf, ?_, ?_, ?_⟩
    · simp only [squeezeBlocks]
      rw [hp, up_perms, down_perms, List.length_cons]; omega
    · simp only [squeezeBlocks]
      rw [hs, up_sphase]; simp
    · simp only [squeezeBlocks]
      rw [List.length_append, length_up_output, hl, List.sum_cons]

/-- The squeeze rate of a constructed sponge is positive (R120). -/
theorem squeezeRate_pos {m : SMode} (h : m ≠ .none) : 0 < squeezeRate m := by cases m <;> simp_all [squeezeRate]

/-- The absorb rate of a constructed sponge is positive (R120). -/
theorem absorbRate_pos {m : SMode} (h : m ≠ .none) : 0 < absorbRate m := by cases m <;> simp_all [absorbRate]

/-- `SqueezeAny` (R127, R132): SPHASE is UP, `n` bytes come out, one permutation a chunk and at least one. -/
theorem squeezeAny_facts (n : Nat) (cu : Byte) (q : Sequencer) (h : q.smode ≠ .none) :
    Frame q (squeezeAny n cu q).1 ∧ (squeezeAny n cu q).1.sphase = .up ∧
      (squeezeAny n cu q).1.perms = q.perms + max 1 (pieces n (squeezeRate q.smode)) ∧
      (squeezeAny n cu q).2.length = n := by
  have hl := length_chunkSizes n (squeezeRate q.smode)
  have hsum := sum_chunkSizes (squeezeRate_pos h) n
  unfold squeezeAny
  split
  · next hz =>
    rw [hz] at hl hsum
    refine ⟨up_frame .., up_sphase .., ?_, ?_⟩
    · rw [up_perms, ← hl]; simp
    · simpa [up_output_none] using hsum
  · next z zs hz =>
    rw [hz] at hl hsum
    obtain ⟨hf, hp, hs, ho⟩ := squeezeBlocks_facts zs (up (some z) cu q).1
    refine ⟨(up_frame ..).trans hf, ?_, ?_, ?_⟩
    · simp only
      rw [hs, up_sphase]; simp
    · simp only
      rw [hp, up_perms, ← hl, List.length_cons]; omega
    · simp only
      rw [List.length_append, length_up_output, ho, ← hsum, List.sum_cons]

/-- Continuing a squeeze block by block, with the output gathered on the way (R127, R129). -/
theorem foldl_squeeze (zs : List Nat) (q : Sequencer) (out : List Byte) :
    zs.foldl (fun a z => ((up (some z) 0x00 (down none 0x00 a.1)).1,
      a.2 ++ (up (some z) 0x00 (down none 0x00 a.1)).2)) (q, out) =
      ((squeezeBlocks zs q).1, out ++ (squeezeBlocks zs q).2) := by
  induction zs generalizing q out with
  | nil => simp [squeezeBlocks]
  | cons z zs ih =>
    rw [List.foldl_cons, ih]
    simp only [squeezeBlocks, List.append_assoc]
    rfl

/-- `SqueezeAny` (R127): the first chunk with the given domain byte, or none, then the continuation. -/
theorem squeezeAny_eq (n : Nat) (cu : Byte) (q : Sequencer) :
    squeezeAny n cu q =
      ((squeezeBlocks (chunkSizes n (squeezeRate q.smode)).tail
          (up (chunkSizes n (squeezeRate q.smode)).head? cu q).1).1,
        (up (chunkSizes n (squeezeRate q.smode)).head? cu q).2 ++
          (squeezeBlocks (chunkSizes n (squeezeRate q.smode)).tail
            (up (chunkSizes n (squeezeRate q.smode)).head? cu q).1).2) := by
  unfold squeezeAny
  cases chunkSizes n (squeezeRate q.smode) with
  | nil => exact Prod.ext rfl rfl
  | cons z zs => rfl

/-- `AbsorbAny` (R126): the first chunk, or none, with the given domain byte after the forced up, then the continuation. -/
theorem absorbAny_eq (x : List Byte) (r : Nat) (cd : Byte) (q : Sequencer) :
    absorbAny x r cd q = (chunks x r).tail.foldl absorbStep (down (chunks x r).head? cd (forceUp q)) := by
  unfold absorbAny
  cases chunks x r <;> rfl

/-! ### The internal buffers and the crypt blocks -/

/-- What was put into a buffer is what its start holds. -/
theorem take_fillBuf (n : Nat) (x : List Byte) : (fillBuf n x).take x.length = x := by simp [fillBuf]

theorem take_loadK (q : Sequencer) (x : List Byte) : (q.loadK x).kbuf.take x.length = x := take_fillBuf ..

theorem encryptBlock_state (cu : Byte) (p : List Byte) (q : Sequencer) :
    encryptBlock cu p q =
      ((down (some p) dZero (up (some p.length) cu q).1).wipeK, xorSeq p (up (some p.length) cu q).2) := by
  unfold encryptBlock
  have hk : ((up (some p.length) cu q).1.loadK (up (some p.length) cu q).2).kbuf.take p.length
      = (up (some p.length) cu q).2 := by
    have h := length_up_output p.length cu q
    generalize up (some p.length) cu q = r at h
    rw [← h, take_loadK]
  exact Prod.ext rfl (congrArg (xorSeq p) hk)

theorem decryptBlock_state (cu : Byte) (c : List Byte) (q : Sequencer) :
    decryptBlock cu c q =
      ((down (some (xorSeq c (up (some c.length) cu q).2)) dZero (up (some c.length) cu q).1).wipeK,
        xorSeq c (up (some c.length) cu q).2) := by
  unfold decryptBlock
  have hk : ((up (some c.length) cu q).1.loadK (up (some c.length) cu q).2).kbuf.take c.length
      = (up (some c.length) cu q).2 := by
    have h := length_up_output c.length cu q
    generalize up (some c.length) cu q = r at h
    rw [← h, take_loadK]
  simp only [hk]
  rfl

/-- The blocks of a message (R148, D13): its first chunk, or the empty block, and the chunks after it. -/
theorem cryptBlocks_eq (x : List Byte) : cryptBlocks x = (chunks x 24).headD [] :: (chunks x 24).tail := by
  unfold cryptBlocks
  cases chunks x 24 <;> rfl

/-- Wiping K does not change what the primitives do (R148, R149). -/
theorem up_wipeK_state (n : Option Nat) (cu : Byte) (q : Sequencer) : (up n cu q.wipeK).1 = (up n cu q).1.wipeK := by
  rw [up_state, up_state, wipeK_smode, wipeK_sst]
  generalize xoodoo 12 _ = s
  rfl

theorem up_wipeK_output (n : Option Nat) (cu : Byte) (q : Sequencer) : (up n cu q.wipeK).2 = (up n cu q).2 := by
  cases n with
  | none => exact (up_output_none ..).trans (up_output_none ..).symm
  | some n =>
    have h : (up (some n) cu q.wipeK).1.sst = (up (some n) cu q).1.sst :=
      (congrArg Sequencer.sst (up_wipeK_state ..)).trans (wipeK_sst _)
    exact (up_output ..).trans ((congrArg (memRead · 0 n) h).trans (up_output ..).symm)

theorem down_wipeK (x : Option (List Byte)) (cd : Byte) (q : Sequencer) : down x cd q.wipeK = (down x cd q).wipeK := by
  rw [down_state, down_state, wipeK_smode, wipeK_sst]
  generalize xorBytes _ 47 _ = s
  rfl

theorem wipeK_wipeK (q : Sequencer) : q.wipeK.wipeK = q.wipeK := rfl

theorem cryptLoop_cons (block : Byte → List Byte → Sequencer → Sequencer × List Byte) (cu : Byte) (x : List Byte)
    (xs : List (List Byte)) (q : Sequencer) :
    cryptLoop block cu (x :: xs) q =
      ((cryptLoop block dZero xs (block cu x q).1).1, (block cu x q).2 ++ (cryptLoop block dZero xs (block cu x q).1).2) :=
  rfl

/-- A block of S.ENCRYPT after a wiped K (R148), in the primitives alone. -/
theorem encryptBlock_wipeK (cu : Byte) (p : List Byte) (q : Sequencer) :
    encryptBlock cu p q.wipeK =
      ((down (some p) dZero (up (some p.length) cu q).1).wipeK, xorSeq p (up (some p.length) cu q).2) := by
  rw [encryptBlock_state, up_wipeK_state, up_wipeK_output, down_wipeK, wipeK_wipeK]

/-- A block of S.DECRYPT after a wiped K (R149), in the primitives alone. -/
theorem decryptBlock_wipeK (cu : Byte) (c : List Byte) (q : Sequencer) :
    decryptBlock cu c q.wipeK =
      ((down (some (xorSeq c (up (some c.length) cu q).2)) dZero (up (some c.length) cu q).1).wipeK,
        xorSeq c (up (some c.length) cu q).2) := by
  rw [decryptBlock_state, up_wipeK_state, up_wipeK_output, down_wipeK, wipeK_wipeK]

/-- The later blocks of a block loop (R148, R149) as a fold of `g`, when `block` is `g` with K wiped: each block has domain 0
and starts from the state the one before left, and the outputs stand in order. -/
theorem cryptLoop_foldl {block : Byte → List Byte → Sequencer → Sequencer × List Byte}
    {g : List Byte → Sequencer → Sequencer × List Byte}
    (hb : ∀ x q, block dZero x q.wipeK = ((g x q).1.wipeK, (g x q).2)) (xs : List (List Byte)) (q : Sequencer)
    (out : List Byte) :
    (xs.foldl (fun a x => ((g x a.1).1, a.2 ++ (g x a.1).2)) (q, out)).1.wipeK = (cryptLoop block dZero xs q.wipeK).1 ∧
    (xs.foldl (fun a x => ((g x a.1).1, a.2 ++ (g x a.1).2)) (q, out)).2 =
      out ++ (cryptLoop block dZero xs q.wipeK).2 := by
  induction xs generalizing q out with
  | nil => exact ⟨rfl, (List.append_nil out).symm⟩
  | cons x xs ih =>
    obtain ⟨h1, h2⟩ := ih (g x q).1 (out ++ (g x q).2)
    rw [cryptLoop_cons, hb]
    exact ⟨h1, h2.trans (List.append_assoc ..)⟩

/-- There is always a first block (R148, D13). -/
theorem cryptBlocks_ne_nil (x : List Byte) : cryptBlocks x ≠ [] := by
  unfold cryptBlocks
  split <;> simp

end Sys2Proof.Machine
end

