-- ==== Sys2Proof/Tests/Slice0.lean ====
section
/-! SUPPORT. Sys2Proof/Tests/Slice0.lean: the model's own tests: the well-formedness smoke tests, decoding of written-out
words, at most two small tests per command with the values of spec/95_test_vectors.md, and one witness per statement that
its hypotheses can hold. Expected values stand in the spec; where a comment names none, they are the rule's own. -/

namespace Sys2Proof.Tests

open Sys2Proof.Machine

set_option Elab.async false

/-! ## Well-formedness: an ill-formed command for each check -/

theorem test_wf_add_lane : (Instr.eAdd 256 0 0).wellFormed = false := by decide
theorem test_wf_add_offset : (Instr.eAdd 0 64 0).wellFormed = false := by decide
theorem test_wf_add_length : (Instr.eAdd 0 0 4294967296).wellFormed = false := by decide
theorem test_wf_extract_lane : (Instr.eExtract 256 0).wellFormed = false := by decide
theorem test_wf_extract_length : (Instr.eExtract 0 4294967296).wellFormed = false := by decide
theorem test_wf_keyed_key : (Instr.sKeyed 64 0 0 none).wellFormed = false := by decide
theorem test_wf_keyed_id : (Instr.sKeyed 0 64 0 none).wellFormed = false := by decide
theorem test_wf_keyed_nonce : (Instr.sKeyed 0 0 64 none).wellFormed = false := by decide
theorem test_wf_keyed_counter : (Instr.sKeyed 0 0 0 (some 4294967296)).wellFormed = false := by decide
theorem test_wf_format_l :
    ∀ i ∈ [Instr.sAbsorb 4294967296, .sAbsorbMore 4294967296, .sSqueeze 4294967296, .sSqueezeMore 4294967296,
      .sSqueezeKey 4294967296, .sEncrypt 4294967296, .sDecrypt 4294967296], i.wellFormed = false := by decide

/-! ## Decoding: words written out from R52 to R57, R65 and 95_test_vectors.md -/

theorem test_decode_rd_status : decode 0x00000001 0 = .ok .rdStatus := by decide
theorem test_decode_rd_config : decode 0x00000002 0 = .ok .rdConfig := by decide
theorem test_decode_permute : decode 0x00000010 0 = .ok .ePermute := by decide
/-- V2.3 and V3.1. -/
theorem test_decode_add :
    decode 0x002F0111 1 = .ok (.eAdd 1 47 1) ∧ decode 0x00010011 4 = .ok (.eAdd 0 1 4) := by decide
/-- P1, step 5. -/
theorem test_decode_extract : decode 0x00000112 48 = .ok (.eExtract 1 48) := by decide
theorem test_decode_zeroize : decode 0x00000013 0 = .ok .eZeroize := by decide
theorem test_decode_hash : decode 0x00000020 0 = .ok .sHash := by decide
/-- V4.14 and V4.13. -/
theorem test_decode_keyed :
    decode 0x00D29421 0 = .ok (.sKeyed 20 10 13 none) ∧ decode 0x04000321 0 = .ok (.sKeyed 3 0 0 (some 0)) := by decide
theorem test_decode_absorb : decode 0x00000022 3 = .ok (.sAbsorb 3) := by decide
theorem test_decode_absorb_more : decode 0x00000023 24 = .ok (.sAbsorbMore 24) := by decide
theorem test_decode_squeeze : decode 0x00000024 32 = .ok (.sSqueeze 32) := by decide
theorem test_decode_squeeze_more : decode 0x00000025 16 = .ok (.sSqueezeMore 16) := by decide
theorem test_decode_squeeze_key : decode 0x00000026 16 = .ok (.sSqueezeKey 16) := by decide
theorem test_decode_ratchet : decode 0x00000027 0 = .ok .sRatchet := by decide
theorem test_decode_encrypt : decode 0x00000028 25 = .ok (.sEncrypt 25) := by decide
theorem test_decode_decrypt : decode 0x00000029 25 = .ok (.sDecrypt 25) := by decide
theorem test_decode_release : decode 0x0000002F 0 = .ok .sRelease := by decide
/-- V5.1, rows a to d: an opcode that is not assigned, checked before the reserved bits. -/
theorem test_decode_illegal :
    decode 0x00000000 0 = .error .illegalOpcode ∧ decode 0x000000FF 0 = .error .illegalOpcode ∧
    decode 0x00000003 0 = .error .illegalOpcode ∧ decode 0x0000FF2A 0 = .error .illegalOpcode := by decide
/-- V5.1, rows e to k: a reserved field that is not zero. -/
theorem test_decode_reserved :
    decode 0x00000110 0 = .error .reservedNonzero ∧ decode 0x00000001 1 = .error .reservedNonzero ∧
    decode 0x00010012 4 = .error .reservedNonzero ∧ decode 0x00400011 0 = .error .reservedNonzero ∧
    decode 0x00000321 1 = .error .reservedNonzero ∧ decode 0x08000321 0 = .error .reservedNonzero ∧
    decode 0x00000124 16 = .error .reservedNonzero := by decide
/-- R66: words least significant byte first, then DIN; and a stream too short for CMD and LEN. -/
theorem test_decode_bytes :
    decodeBytes [0x11, 0x01, 0x2F, 0x00, 0x01, 0x00, 0x00, 0x00, 0x80] = .ok (.eAdd 1 47 1, [0x80]) ∧
    decodeBytes [0x00, 0x00, 0x00, 0x00, 0x00, 0x00, 0x00, 0x00] = .error (.rejected .illegalOpcode) ∧
    decodeBytes [0x01, 0x00, 0x00, 0x00, 0x00, 0x00, 0x00] = .error .truncated := by decide
/-- R66, P2 step 2 and V3.2: RESP goes back least significant byte first, after DOUT byte 0 first. -/
theorem test_response_bytes :
    responseBytes [] 0x00000500 = [0x00, 0x05, 0x00, 0x00] ∧
    responseBytes [0x00, 0x01, 0x02] 0x12345678 = [0x00, 0x01, 0x02, 0x78, 0x56, 0x34, 0x12] ∧
    readResponse [0x00, 0x01, 0x02, 0x78, 0x56, 0x34, 0x12] = some ([0x00, 0x01, 0x02], 0x12345678) ∧
    readResponse [0x00, 0x05, 0x00] = none := by decide
/-- The words of every row of the opcode table, fields zero, are read as the row's command. -/
theorem test_table_words :
    opcodeTable.map (fun row => (decodeTableWord 32 row.value.toNat).map Instr.mnemonic) =
      opcodeTable.map (fun row => some row.mnemonic) := by decide
/-- No two rows of the table share a word: where both masks look, they differ. -/
theorem test_table_disjoint :
    opcodeTable.Pairwise (fun p q => p.value &&& q.mask ≠ q.value ∨ q.value &&& p.mask ≠ p.value) := by decide

/-! ## Small states -/

/-- A 12-word state from its words. -/
def laneOf (ws : List Word) : Lane := Lane.ofWords fun w => ws.getD w 0

/-- A ready block, N = 1 and R = 12, with one lane, a mode, a phase, a sponge state and the DIN of its command. -/
def block (lane : Lane) (mode : SMode) (phase : SPhase) (sst : Lane) (din : List Byte) : State :=
  { State.reset with
    lanes := [lane]
    seq := { Sequencer.reset with sst := sst, smode := mode, sphase := phase }
    din := din
    resp := statusWord false .none mode phase }

/-- A ready block with zero lanes and a zero sponge state. -/
def plain (mode : SMode) (phase : SPhase) (din : List Byte) : State := block Lane.zero mode phase Lane.zero din

/-- The block with the next action of the host a transaction. -/
def sent (cmd len : Word) (din : List Byte) (s : State) : State := { s with pending := [.issue ⟨cmd, len, din⟩] }

/-- The block in the faulted state with a cause. -/
def faulted (c : Cause) (s : State) : State :=
  { s with fault := true, cause := c, resp := statusWord true c s.seq.smode s.seq.sphase }

/-- The state an outcome leaves. -/
def after : Outcome → State
  | .next t => t
  | .fault _ | .refused _ => State.reset

/-- Every command answers with a next state (R67). -/
theorem exec_after (i : Instr) (s : State) : exec i s = .next (after (exec i s)) := by
  have h : ∃ t, exec i s = .next t := by cases i <;> exact runCommand_next _ _ _
  obtain ⟨t, h⟩ := h
  rw [h]
  rfl

/-- Every step answers with a next state (R67). -/
theorem step_after (s : State) : step s = .next (after (step s)) := by
  have h : ∃ t, step s = .next t := by
    unfold step takeAction transact
    split
    · exact ⟨_, rfl⟩
    · exact ⟨_, rfl⟩
    · split
      · exact ⟨_, exec_after _ _⟩
      · exact ⟨_, rfl⟩
  obtain ⟨t, h⟩ := h
  rw [h]
  rfl

/-- The words of a 12-word state. -/
def wordsOf (s : Lane) : List Word := (List.range 12).map s.word

/-- SST after `S.KEYED "6B6579", "", ""` (V4.5). -/
def keySst : Lane := laneOf [0x0079656B, 0x00000001, 0, 0, 0, 0, 0, 0, 0, 0, 0, 0x02000000]

/-- SST after `S.HASH` and `S.ABSORB "616263"` (P2). -/
def abcSst : Lane := laneOf [0x01636261, 0, 0, 0, 0, 0, 0, 0, 0, 0, 0, 0x01000000]

/-- SST after P3's step 2. -/
def adSst : Lane := laneOf
  [0xDF17C320, 0x1998B350, 0xFDB5F6C9, 0x26DB5C5A, 0x69E703AF, 0x6D4D8F93, 0xBB18B9AB, 0x915BA4FD, 0x6B2C8A13,
   0xD8981AB7, 0xBFEAAAE9, 0x7CD5AD03]

/-- SST after P3's step 3, and after P4's. -/
def ctSst : List Word :=
  [0x825A08F6, 0x05B1FD98, 0xE2C17C27, 0x7C29918D, 0x304839A0, 0x9CE87318, 0x34251803, 0x2487F305, 0xF418FC8B,
   0x0958C2E7, 0x2370AFC9, 0xFD13B017]

/-- P3's plaintext, A0 to B8. -/
def p3Plain : List Byte := (List.range 25).map fun i => BitVec.ofNat 8 (0xA0 + i)

/-- P3's ciphertext. -/
def p3Cipher : List Byte :=
  [0xEB, 0x27, 0xF0, 0x95, 0x42, 0x86, 0xC4, 0x29, 0xB4, 0x7E, 0xED, 0x5C, 0x9F, 0xD4, 0x74, 0x4A, 0x60, 0xB5, 0x9C,
   0xD5, 0x3E, 0x30, 0x13, 0xDB, 0xF6]

/-! ## The permutation -/

/-- V1.4: Theta. -/
theorem test_theta :
    wordsOf (theta (laneOf [1])) = [0x00000001, 0x00004020, 0, 0, 0, 0x00004020, 0, 0, 0, 0x00004020, 0, 0] := by
  decide +kernel
/-- V1.4: Rho-West. -/
theorem test_rho_west :
    wordsOf (rhoWest (laneOf [0, 0, 0, 0, 1, 2, 3, 4, 0x00000001, 0x80000000])) =
      [0, 0, 0, 0, 4, 1, 2, 3, 0x00000800, 0x00000400, 0, 0] := by decide +kernel
/-- V1.4: Chi, with A all ones. -/
theorem test_chi :
    wordsOf (chi (laneOf [0xFFFFFFFF, 0xFFFFFFFF, 0xFFFFFFFF, 0xFFFFFFFF])) =
      [0xFFFFFFFF, 0xFFFFFFFF, 0xFFFFFFFF, 0xFFFFFFFF, 0xFFFFFFFF, 0xFFFFFFFF, 0xFFFFFFFF, 0xFFFFFFFF,
       0, 0, 0, 0] := by decide +kernel
/-- V1.4: Rho-East. -/
theorem test_rho_east :
    wordsOf (rhoEast (laneOf [0, 0, 0, 0, 0x80000001, 0, 0, 0, 0x11223344, 0x55667788, 0x99AABBCC, 0xDDEEFF00])) =
      [0, 0, 0, 0, 0x00000003, 0, 0, 0, 0xAABBCC99, 0xEEFF00DD, 0x22334411, 0x66778855] := by decide +kernel
/-- V1.5: a full round. -/
theorem test_round :
    wordsOf (xoodoo 1 (laneOf [0, 1, 2, 3, 4, 5, 6, 7, 8, 9, 10, 11])) =
      [0x1E0F81F2, 0x180F0981, 0x1A0F11A2, 0x1C0F99C3, 0x0006006A, 0x000180CA, 0x0002004E, 0x000580CA,
       0x0D50051A, 0x0E18241C, 0x0F40051E, 0x0C886418] := by decide +kernel
/-- V1.1, R = 2: the order of the constants. -/
theorem test_two_rounds :
    wordsOf (xoodoo 2 Lane.zero) =
      [0x000001B2, 0xC2585C05, 0, 0, 0x00000364, 0x0030BE80, 0x0170B800, 0, 0xB85C0000, 0, 0, 0xE00345C2] := by
  decide +kernel

/-! ## The commands -/

/-- V4.22: RD_STATUS after V4.5. -/
theorem test_rd_status : (after (exec .rdStatus (block Lane.zero .keyed .down keySst []))).dout = [0x00, 0x06, 0x00, 0x00] := by
  decide +kernel
/-- P5, step 5: RD_STATUS in the faulted state. -/
theorem test_rd_status_faulted :
    (after (exec .rdStatus (faulted .keyedOnly (block Lane.zero .hash .down abcSst [])))).dout = [0x81, 0x05, 0x00, 0x00] := by
  decide +kernel
/-- V4.22: RD_CONFIG for N = 1 and R = 12, and for N = 2 and R = 6. -/
theorem test_rd_config :
    (after (exec .rdConfig State.reset)).dout = [0x01, 0xCC, 0x30, 0x01] ∧
    (after (exec .rdConfig (State.afterReset 2 6))).dout = [0x02, 0xC6, 0x30, 0x01] := by decide +kernel
/-- V1.3. -/
theorem test_permute :
    (after (exec .ePermute State.reset)).lanes.map wordsOf =
      [[0x89D5D88D, 0xA963FCBF, 0x1B232D19, 0xFFA5A014, 0x36B18106, 0xAFC7C1FE, 0xAEE57CBE, 0xA77540BD,
        0x2E86E870, 0xFEF5B7C9, 0x8B4FADF2, 0x5E4F4062]] := by decide +kernel
/-- V2.3: lanes are independent. -/
theorem test_permute_two_lanes :
    ((after (exec .ePermute { State.afterReset 2 12 with
      lanes := [Lane.zero, laneOf [0, 0, 0, 0, 0, 0, 0, 0, 0, 0, 0, 0x80000000]] })).lanes.map fun l => l.word 0) =
      [0x89D5D88D, 0x7B2195A0] := by decide +kernel
/-- V3.1. -/
theorem test_add :
    (after (exec (.eAdd 0 1 4) (plain .none .up [0x01, 0x02, 0x03, 0x04]))).lanes.map wordsOf =
      [[0x03020100, 0x00000004, 0, 0, 0, 0, 0, 0, 0, 0, 0, 0]] := by decide +kernel
/-- V3.8: across a word boundary. -/
theorem test_add_across_words :
    ((after (exec (.eAdd 0 3 2) (plain .none .up [0xFF, 0xFF]))).lane 0).word 0 = 0xFF000000 ∧
    ((after (exec (.eAdd 0 3 2) (plain .none .up [0xFF, 0xFF]))).lane 0).word 1 = 0x000000FF := by decide +kernel
/-- V3.2. -/
theorem test_extract :
    (after (exec (.eExtract 0 6) (block (laneOf [0x03020100, 0x00000004]) .none .up Lane.zero []))).dout =
      [0x00, 0x01, 0x02, 0x03, 0x04, 0x00] := by decide +kernel
/-- V3.9. -/
theorem test_zeroize :
    (after (exec .eZeroize (block (laneOf [0xFF000000, 0x000000FF]) .none .up Lane.zero []))).lanes = [Lane.zero] := by
  decide +kernel
/-- P2, step 1, from a used keyed sponge. -/
theorem test_hash :
    (after (exec .sHash (block Lane.zero .keyed .down keySst []))).resp = 0x00000100 ∧
    (after (exec .sHash (block Lane.zero .keyed .down keySst []))).seq.sst = Lane.zero := by decide +kernel
/-- V4.5. -/
theorem test_keyed :
    (after (exec (.sKeyed 3 0 0 none) (plain .none .up [0x6B, 0x65, 0x79]))).seq.sst = keySst ∧
    (after (exec (.sKeyed 3 0 0 none) (plain .none .up [0x6B, 0x65, 0x79]))).resp = 0x00000600 := by decide +kernel
/-- V4.13: the counter 0102, seen through a squeeze. -/
theorem test_keyed_counter :
    (squeezeAny 16 dSqueeze (after (exec (.sKeyed 3 0 0 (some 2))
      (plain .none .up [0x6B, 0x65, 0x79, 0x01, 0x02]))).seq).2 =
      [0xBC, 0x5D, 0x35, 0xAE, 0x4F, 0x7D, 0x70, 0x14, 0x0C, 0x26, 0xB9, 0xD2, 0x46, 0x11, 0xD6, 0x96] := by
  decide +kernel
/-- P2, step 2. -/
theorem test_absorb :
    (after (exec (.sAbsorb 3) (plain .hash .up [0x61, 0x62, 0x63]))).seq.sst = abcSst ∧
    (after (exec (.sAbsorb 3) (plain .hash .up [0x61, 0x62, 0x63]))).resp = 0x00000500 := by decide +kernel
/-- P3, step 2: the forced up in KEYED. -/
theorem test_absorb_forced_up :
    (after (exec (.sAbsorb 2) (block Lane.zero .keyed .down
      (laneOf [0x03020100, 0x07060504, 0x0B0A0908, 0x0F0E0D0C, 0x13121110, 0x17161514, 0x1B1A1918, 0x1F1E1D1C,
        0x00000110, 0, 0, 0x02000000]) [0x41, 0x44]))).seq.sst = adSst := by decide +kernel
/-- V4.6: bytes 00 to 27 in S.ABSORB 16 and S.ABSORB_MORE 24, seen through a squeeze. -/
theorem test_absorb_more :
    ((squeezeAny 32 dSqueeze (after (exec (.sAbsorbMore 24) { plain .hash .up [] with
      seq := absorbAny ((List.range 16).map (BitVec.ofNat 8)) 16 dAbsorb (startSponge .hash Sequencer.reset)
      din := (List.range 24).map fun i => BitVec.ofNat 8 (16 + i) })).seq).2).take 8 =
      [0x66, 0xCA, 0x89, 0xA0, 0x0E, 0xCD, 0x7B, 0xE7] := by decide +kernel
/-- V4.21: an empty message changes nothing. -/
theorem test_absorb_more_empty :
    (after (exec (.sAbsorbMore 0) (block Lane.zero .keyed .down keySst []))).seq =
      (block Lane.zero .keyed .down keySst []).seq := by decide +kernel
/-- V4.1: the published hash of the empty message, from the state of V4.19. -/
theorem test_squeeze :
    (after (exec (.sSqueeze 32) (block Lane.zero .hash .down
      (laneOf [0x00000001, 0, 0, 0, 0, 0, 0, 0, 0, 0, 0, 0x01000000]) []))).dout =
      [0xEA, 0x15, 0x2F, 0x2B, 0x47, 0xBC, 0xE2, 0x4E, 0xFB, 0x66, 0xC4, 0x79, 0xD4, 0xAD, 0xF1, 0x7B, 0xD3, 0x24,
       0xD8, 0x06, 0xE8, 0x5F, 0xF7, 0x5E, 0xE3, 0x69, 0xEE, 0x50, 0xDC, 0x8F, 0x8B, 0xD1] := by decide +kernel
/-- V4.3: the keyed squeeze. -/
theorem test_squeeze_keyed :
    (after (exec (.sSqueeze 32) (block Lane.zero .keyed .down keySst []))).dout =
      [0x6A, 0xF7, 0xB4, 0xB0, 0xCF, 0xD9, 0x82, 0xC8, 0xED, 0x71, 0xA3, 0xB9, 0xE0, 0x35, 0x78, 0x89, 0xFB, 0x7E,
       0xD8, 0x03, 0x57, 0x2D, 0xEF, 0xD6, 0x29, 0xC9, 0xF6, 0x38, 0x53, 0x37, 0x12, 0x6C] := by decide +kernel
/-- V4.7: the second 16 bytes of the hash of "abc". -/
theorem test_squeeze_more :
    (after (exec (.sSqueezeMore 16) { plain .hash .up [] with
      seq := (squeezeAny 16 dSqueeze (block Lane.zero .hash .down abcSst []).seq).1 })).dout =
      [0x91, 0x09, 0xBC, 0x0B, 0x3C, 0x4E, 0x1E, 0x64, 0x7C, 0x4D, 0x11, 0x27, 0xB1, 0x8E, 0x2A, 0x1E] := by
  decide +kernel
/-- V4.17: permutations of S.SQUEEZE_MORE in HASH. -/
theorem test_squeeze_more_count :
    [0, 1, 16, 17, 32, 33].map (fun n => (after (exec (.sSqueezeMore n) (plain .hash .up []))).seq.perms) =
      [0, 1, 1, 2, 2, 3] := by decide +kernel
/-- V4.12. -/
theorem test_squeeze_key :
    (after (exec (.sSqueezeKey 32) (block Lane.zero .keyed .down keySst []))).dout =
      [0x1D, 0x65, 0xE4, 0xC5, 0xB3, 0x91, 0x6B, 0x91, 0xF3, 0xEF, 0x14, 0x97, 0x08, 0xB0, 0x89, 0xE7, 0xE7, 0xA8,
       0xE8, 0x4C, 0x20, 0xE0, 0xE2, 0x7C, 0xF5, 0x31, 0x84, 0x05, 0x68, 0xE6, 0x47, 0x2B] := by decide +kernel
/-- P6, step 2. -/
theorem test_ratchet :
    wordsOf (after (exec .sRatchet (block Lane.zero .keyed .down keySst []))).seq.sst =
      [0, 0, 0, 0, 0x02E041BF, 0xB1D98915, 0xC0D43B3A, 0xF6135893, 0xC673EB29, 0xB1010FD5, 0x58F6F75A, 0x7D115D53] := by
  decide +kernel
/-- P3, step 3: 25 bytes, two blocks. -/
theorem test_encrypt :
    (after (exec (.sEncrypt 25) (block Lane.zero .keyed .down adSst p3Plain))).dout = p3Cipher ∧
    wordsOf (after (exec (.sEncrypt 25) (block Lane.zero .keyed .down adSst p3Plain))).seq.sst = ctSst := by
  decide +kernel
/-- V4.20: the empty message is one block. -/
theorem test_encrypt_empty :
    (after (exec (.sEncrypt 0) (block Lane.zero .keyed .down keySst []))).seq.perms = 1 ∧
    (after (exec (.sEncrypt 0) (block Lane.zero .keyed .down keySst []))).dout = [] := by decide +kernel
/-- P4, step 3. -/
theorem test_decrypt :
    (after (exec (.sDecrypt 25) (block Lane.zero .keyed .down adSst p3Cipher))).dout = p3Plain ∧
    wordsOf (after (exec (.sDecrypt 25) (block Lane.zero .keyed .down adSst p3Cipher))).seq.sst = ctSst := by
  decide +kernel
/-- P2, step 4. -/
theorem test_release :
    (after (exec .sRelease (block Lane.zero .hash .down abcSst []))).resp = 0x00000000 ∧
    (after (exec .sRelease (block Lane.zero .hash .down abcSst []))).seq.sst = Lane.zero := by decide +kernel

/-! ## The step -/

/-- V5.1, one transaction for each cause, from `plain` in the mode the row names: the response of the step. -/
theorem test_fault_responses :
    (after (step (sent 0x00000000 0 [] (plain .none .up [])))).resp = 0x00000011 ∧
    (after (step (sent 0x00000124 16 [] (plain .hash .up [])))).resp = 0x00000121 ∧
    (after (step (sent 0x00000011 2 [0] (plain .none .up [])))).resp = 0x00000031 ∧
    (after (step (sent 0x00000112 1 [] (plain .none .up [])))).resp = 0x00000041 ∧
    (after (step (sent 0x002F0011 2 [0, 0] (plain .none .up [])))).resp = 0x00000051 ∧
    (after (step (sent 0x00000012 49 [] (plain .none .up [])))).resp = 0x00000061 ∧
    (after (step (sent 0x00000027 0 [] (plain .none .up [])))).resp = 0x00000071 ∧
    (after (step (sent 0x00000028 1 [0] (plain .hash .up [])))).resp = 0x00000181 ∧
    (after (step (sent 0x00002C21 0 (List.replicate 44 0) (plain .none .up [])))).resp = 0x00000091 := by
  decide +kernel
/-- V5.2: the order of the checks. -/
theorem test_fault_order :
    (after (step (sent 0x00000511 2 [0] (plain .none .up [])))).resp = 0x00000031 ∧
    (after (step (sent 0x00000122 0 [] (plain .none .up [])))).resp = 0x00000021 ∧
    (after (step (sent 0x00003F21 0 [] (plain .none .up [])))).resp = 0x00000031 ∧
    (after (step (sent 0x002F0111 2 [0, 0] (plain .none .up [])))).resp = 0x00000041 := by decide +kernel
/-- V5.3, row 2: a refused S.HASH leaves SMODE at NONE. -/
theorem test_refusal :
    (after (step (sent 0x00000020 0 [] (faulted .spongeUninit (plain .none .up []))))).resp = 0x00000071 ∧
    (after (step (sent 0x00000020 0 [] (faulted .spongeUninit (plain .none .up []))))).seq.smode = .none := by
  decide +kernel
/-- V5.3, row 7: reset clears the fault. -/
theorem test_reset :
    status (after (step { faulted .spongeUninit (plain .none .up []) with pending := [.reset] })) = 0x00000000 := by
  decide +kernel
/-- With nothing to do the block waits (log entry 4). -/
theorem test_idle : step State.reset = .next State.reset := rfl
/-- `withFetchWord`: the first step after reset runs the table word's command (log entries 2 and 11). -/
theorem test_fetch_word :
    step (State.reset.withFetchWord 32 0x00000020) = exec .sHash State.reset ∧
    (after (step (State.reset.withFetchWord 32 0x00000321))).resp = 0x00000600 := by
  constructor
  · rfl
  · decide +kernel

/-! ## Witnesses: the hypotheses of each statement can hold together, at the ends of their ranges -/

/-- Boundary operands for the encoding statements. -/
theorem witness_DecodeOfEncodeIsTheCommand :
    ∀ i ∈ [Instr.rdStatus, .eAdd 255 63 4294967295, .eExtract 255 4294967295, .sKeyed 63 63 63 (some 4294967295),
      .sKeyed 0 0 0 none, .sKeyed 0 0 0 (some 0), .sAbsorb 4294967295, .sRelease], i.wellFormed = true := by decide
theorem witness_EncodeOfDecodeIsTheWords :
    decode 0x003FFF11 0xFFFFFFFF = .ok (.eAdd 255 63 4294967295) ∧
    decode 0x07FFFF21 0xFFFFFFFF = .ok (.sKeyed 63 63 63 (some 4294967295)) := by decide +kernel
theorem witness_DecodedCommandMatchesItsTableRowOnly :
    decode 0x002F0111 1 = .ok (.eAdd 1 47 1) ∧ (⟨"E.ADD", 0x00000011, 0xFFC000FF⟩ : TableRow) ∈ opcodeTable ∧
    (0x002F0111#32 &&& 0xFFC000FF#32 = 0x00000011#32) := by decide +kernel
theorem witness_TransportReadsBackTheTransaction : decode 0x002F0111 1 = .ok (.eAdd 1 47 1) := by decide
theorem witness_AssembledCommandsDecodeWithTheirDin :
    (Asm.sKeyed [0x6B, 0x65, 0x79] [] [] (some [])).instr.wellFormed = true ∧
    (Asm.sKeyed [0x6B, 0x65, 0x79] [] [] (some [])).transaction = ⟨0x04000321, 0, [0x6B, 0x65, 0x79]⟩ := by decide
theorem witness_StepRunsTheDecodedCommand :
    (sent 0x00010011 4 [1, 2, 3, 4] State.reset).pending = .issue ⟨0x00010011, 4, [1, 2, 3, 4]⟩ :: [] ∧
    decode 0x00010011 4 = .ok (.eAdd 0 1 4) := by decide +kernel
theorem witness_ResetClearsEverything :
    { faulted .keyedOnly (block (laneOf [1]) .hash .down abcSst []) with pending := [.reset] }.pending =
      .reset :: [] := rfl
/-- The default build, and the ends of the legal builds. -/
theorem witness_ResetValuesAreTheSpecs :
    0 < 1 ∧ Config.LegalLanes 255 ∧ Config.LegalRounds 12 ∧ Config.LegalLanes 1 ∧ Config.LegalRounds 1 := by decide
theorem witness_ResponseIsStatusAfterTheTransaction :
    (sent 0x00000000 0 [] State.reset).pending = .issue ⟨0, 0, []⟩ :: [] := rfl
/-- Ready, with a command that succeeds and one that faults. -/
theorem witness_OutputHasItsLength :
    (plain .keyed .up [1, 2]).Ready ∧ (after (exec (.sEncrypt 2) (plain .keyed .up [1, 2]))).fault = false ∧
    (after (exec (.sEncrypt 3) (plain .keyed .up [1, 2]))).fault = true := by decide +kernel
/-- One transaction for each outcome of the check (V5.1), the boundary value where a check bounds one. -/
theorem witness_CauseIsTheFirstFailingCheck :
    (sent 0 0 [] (plain .none .up [])).Ready ∧
    specCheck (plain .none .up []) 0x0000FF2A 0 [] = .illegalOpcode ∧
    specCheck (plain .none .up []) 0x00010012 4 [] = .reservedNonzero ∧
    specCheck (plain .none .up []) 0x00003F21 0 [] = .dinLength ∧
    specCheck (plain .none .up []) 0x002F0111 2 [0, 0] = .laneRange ∧
    specCheck (plain .none .up []) 0x00300011 1 [0] = .addBounds ∧
    specCheck (plain .none .up []) 0x00300011 0 [] = .none ∧
    specCheck (plain .none .up []) 0x00000012 49 [] = .extractBounds ∧
    specCheck (plain .none .up []) 0x00000012 48 [] = .none ∧
    specCheck (plain .none .up []) 0x00000027 0 [] = .spongeUninit ∧
    specCheck (plain .hash .up []) 0x00000027 0 [] = .keyedOnly ∧
    specCheck (plain .none .up []) 0x00002C21 0 (List.replicate 44 0) = .ivTooLong ∧
    specCheck (plain .none .up []) 0x00002B21 0 (List.replicate 43 0) = .none := by decide +kernel
theorem witness_FaultEntryIsPrecise :
    (sent 0x00000027 0 [] (plain .hash .down [])).Ready ∧
    (sent 0x00000027 0 [] (plain .hash .down [])).pending = .issue ⟨0x27, 0, []⟩ :: [] ∧
    specCheck (sent 0x00000027 0 [] (plain .hash .down [])) 0x00000027 0 [] = .keyedOnly ∧
    Cause.keyedOnly ≠ .none := by decide +kernel
/-- Each clause: RD_STATUS, RD_CONFIG, and a malformed RD_STATUS, which is refused (V5.3, rows 4 to 6). -/
theorem witness_FaultedBlockOnlyReadsRegisters :
    (faulted .spongeUninit (plain .none .up [])).fault = true ∧
    (after (step (sent 1 0 [] (faulted .spongeUninit (plain .none .up []))))).dout = [0x71, 0, 0, 0] ∧
    (after (step (sent 2 0 [] (faulted .spongeUninit (plain .none .up []))))).dout = [0x01, 0xCC, 0x30, 0x01] ∧
    (after (step (sent 1 1 [] (faulted .spongeUninit (plain .none .up []))))).dout = [] := by decide +kernel
/-- Both alternatives: a refused command, and reset. -/
theorem witness_FaultIsStickyUntilReset :
    (after (step (sent 0x20 0 [] (faulted .spongeUninit (plain .none .up []))))).fault = true ∧
    (after (step { faulted .spongeUninit (plain .none .up []) with pending := [.reset] })).fault = false := by
  decide +kernel
/-- Every row of R152 in every mode. -/
theorem witness_LegalityByMode :
    (∀ m ∈ [SMode.none, .hash, .keyed],
      (plain m .up [1]).Ready ∧ (plain m .up []).Ready ∧ (plain m .up []).din.length = dinLen .sHash ∧
      (plain m .up [1]).din.length = dinLen (.sAbsorb 1) ∧ (plain m .up [1]).din.length = dinLen (.sEncrypt 1)) ∧
    (plain .none .up (List.replicate 43 0)).din.length = dinLen (.sKeyed 20 10 13 none) ∧
    [SMode.none, .hash, .keyed].map (fun m => (after (exec (.sSqueeze 1) (plain m .up []))).cause) =
      [.spongeUninit, .none, .none] ∧
    [SMode.none, .hash, .keyed].map (fun m => (after (exec .sRatchet (plain m .up []))).cause) =
      [.spongeUninit, .keyedOnly, .none] := by decide +kernel
theorem witness_ConfigFieldsStandWhereTheyShould :
    (State.afterReset 255 12).LegalBuild ∧ (State.afterReset 1 1).LegalBuild := by decide +kernel
theorem witness_RdStatusReturnsStatus :
    (plain .hash .down []).din = [] ∧ (faulted .keyedOnly (plain .hash .down [])).din = [] := by decide
theorem witness_RdConfigReturnsBuildParameters :
    (State.afterReset 255 12).LegalBuild ∧ (State.afterReset 255 12).din = [] := by decide +kernel
theorem witness_WordsAndBytesAreTwoReadings :
    0 < 48 ∧ 47 < 48 ∧ 11 < 12 ∧ (laneOf [0x0000006B, 0, 0, 0, 0, 0, 0, 0, 0, 0, 0, 0x80000000]).byte 0 = 0x6B ∧
    (laneOf [0x0000006B, 0, 0, 0, 0, 0, 0, 0, 0, 0, 0, 0x80000000]).byte 47 = 0x80 := by decide +kernel
/-- No rotation, and the longest one. -/
theorem witness_RotationIsTowardTheTopBit :
    0 < 32 ∧ 31 < 32 ∧ rotl32 0x80000001 0 = 0x80000001 ∧ rotl32 0x80000001 31 = 0xC0000000 := by decide
/-- The word index at its ends: `x - 1` wraps at 0. -/
theorem witness_ThetaMixesTheColumnParity :
    0 < 4 ∧ 3 < 4 ∧ (theta (laneOf [0, 0, 0, 1])).word 0 = 0x00004020 := by decide +kernel
theorem witness_RhoAndIotaMoveTheirWords :
    0 < 4 ∧ 3 < 4 ∧ (iota 0x12 (laneOf [0x0003C1E0])).word 0 = 0x0003C1F2 := by decide +kernel
theorem witness_ChiIsTheParallelChi : 0 < 4 ∧ 3 < 4 ∧ (chi (laneOf [1])).word 4 = 1 := by decide +kernel
theorem witness_RhoEastIsTheByteTable :
    0 < 16 ∧ 15 < 16 ∧ (rhoEast (laneOf [0, 0, 0, 0, 0, 0, 0, 0, 0, 0, 0x99AABBCC])).byte 32 = 0x99 := by decide +kernel
theorem witness_XoodooIsItsRoundsInOrder : 1 ≤ 1 ∧ 1 ≤ 12 ∧ 12 ≤ 12 := by decide
theorem witness_PermuteAppliesXoodooToEveryLane :
    (plain .none .up []).Ready ∧ (plain .none .up []).din = [] ∧ 0 < (plain .none .up []).lanes.length := by decide
theorem witness_BatchedPermuteIsScalarPerLane :
    (State.afterReset 8 6).Ready ∧ (State.afterReset 8 6).din = [] ∧ (State.afterReset 1 6).Ready ∧
    (State.afterReset 1 6).din = [] ∧ (State.afterReset 1 6).rounds = (State.afterReset 8 6).rounds ∧
    7 < (State.afterReset 8 6).lanes.length ∧ (State.afterReset 1 6).lanes = [(State.afterReset 8 6).lane 7] := by
  decide +kernel
/-- The last lane, the whole lane, and the empty write at offset 48. -/
theorem witness_AddXorsItsBytesIntoItsLane :
    (plain .none .up (List.replicate 48 1)).Ready ∧ (plain .none .up (List.replicate 48 1)).din.length = 48 ∧
    0 < (plain .none .up (List.replicate 48 1)).lanes.length ∧ 0 + 48 ≤ 48 ∧
    (plain .none .up []).din.length = 0 ∧ 48 + 0 ≤ 48 := by decide +kernel
theorem witness_AddTwiceRestoresTheLanes :
    (plain .none .up [1]).Ready ∧ (plain .none .up [1]).din.length = 1 ∧ 0 < (plain .none .up [1]).lanes.length ∧
    47 + 1 ≤ 48 := by decide +kernel
theorem witness_ExtractReturnsTheFirstBytes :
    (State.afterReset 255 12).Ready ∧ (State.afterReset 255 12).din = [] ∧
    254 < (State.afterReset 255 12).lanes.length ∧ 48 ≤ 48 ∧ 0 ≤ 48 := by decide +kernel
theorem witness_ZeroizeClearsEveryLane :
    (block (laneOf [1]) .none .up Lane.zero []).Ready ∧ (block (laneOf [1]) .none .up Lane.zero []).din = [] := by
  decide +kernel
/-- The longest block, the empty one and the absent one. -/
theorem witness_DownXorsBlockPadAndDomain :
    ((some (List.replicate 44 0) : Option (List Byte)).getD []).length ≤ 44 ∧
    ((some [] : Option (List Byte)).getD []).length ≤ 44 ∧ ((none : Option (List Byte)).getD []).length ≤ 44 := by
  decide
theorem witness_PhaseFollowsThePrimitives : 0 < 1 ∧ (plain .hash .down []).seq.smode ≠ .none := by decide
theorem witness_HashConstructsAnEmptySponge :
    (block Lane.zero .keyed .down keySst []).Ready ∧ (block Lane.zero .keyed .down keySst []).din = [] := by
  decide +kernel
theorem witness_ReleaseDestroysTheSponge :
    (block Lane.zero .hash .down abcSst []).Ready ∧ (block Lane.zero .hash .down abcSst []).din = [] := by
  decide +kernel
/-- The longest IV, and the shortest. -/
theorem witness_KeyedAbsorbsItsIv :
    (plain .none .up (List.replicate 43 7)).Ready ∧ (plain .none .up (List.replicate 43 7)).din.length = 20 + 10 + 13 ∧
    20 + 10 + 13 ≤ 43 ∧ (plain .none .up []).din.length = 0 + 0 + 0 := by decide +kernel
/-- A counter, and an empty one. -/
theorem witness_KeyedAbsorbsItsCounterAtRateOne :
    (plain .none .up [1, 2, 3, 4, 5]).Ready ∧ (plain .none .up [1, 2, 3, 4, 5]).din.length = 3 + 0 + 0 + 2 ∧
    (plain .none .up [1, 2, 3]).din.length = 3 + 0 + 0 + 0 ∧ 3 + 0 + 0 ≤ 43 := by decide +kernel
/-- One whole block after an Up in each mode, and one block and a longer message after a Down. -/
theorem witness_AbsorbAbsorbsTheMessage :
    (plain .hash .up (List.replicate 16 1)).Ready ∧ (plain .hash .up (List.replicate 16 1)).seq.smode ≠ .none ∧
    (plain .hash .up (List.replicate 16 1)).din.length = 16 ∧ (plain .hash .up (List.replicate 16 1)).seq.sphase = .up ∧
    (plain .keyed .up (List.replicate 44 1)).Ready ∧ (plain .keyed .up (List.replicate 44 1)).din.length = 44 ∧
    (plain .keyed .down (List.replicate 44 1)).Ready ∧ (plain .keyed .down (List.replicate 44 1)).din.length = 44 ∧
    (plain .keyed .down (List.replicate 44 1)).seq.sphase = .down ∧
    (plain .keyed .down (List.replicate 45 1)).Ready ∧
    (plain .keyed .down (List.replicate 45 1)).din.length = 45 := by decide +kernel
theorem witness_AbsorbMoreContinues :
    (plain .keyed .down (List.replicate 45 1)).Ready ∧ (plain .keyed .down (List.replicate 45 1)).seq.smode ≠ .none ∧
    (plain .keyed .down (List.replicate 45 1)).din.length = 45 ∧ (plain .hash .up []).Ready ∧
    (plain .hash .up []).din.length = 0 := by decide +kernel
theorem witness_SqueezeReturnsItsBytes :
    (plain .hash .down []).Ready ∧ (plain .hash .down []).seq.smode ≠ .none ∧ (plain .hash .down []).din = [] ∧
    (plain .keyed .up []).Ready ∧ (plain .keyed .up []).seq.smode ≠ .none := by decide
theorem witness_SqueezeMoreContinues :
    (plain .keyed .up []).Ready ∧ (plain .keyed .up []).seq.smode ≠ .none ∧ (plain .keyed .up []).din = [] ∧
    0 < 24 ∧ 24 ≤ 24 := by decide
theorem witness_SqueezeKeyReturnsItsBytes :
    (plain .keyed .down []).Ready ∧ (plain .keyed .down []).seq.smode = .keyed ∧ (plain .keyed .down []).din = [] := by
  decide
theorem witness_RatchetForgetsTheFirstBytes :
    (block Lane.zero .keyed .down keySst []).Ready ∧ (block Lane.zero .keyed .down keySst []).seq.smode = .keyed ∧
    (block Lane.zero .keyed .down keySst []).din = [] := by decide +kernel
/-- The empty message, one whole block, and more. -/
theorem witness_EncryptXorsTheKeystream :
    ∀ n ∈ [0, 24, 25], (plain .keyed .down (List.replicate n 1)).Ready ∧
      (plain .keyed .down (List.replicate n 1)).seq.smode = .keyed ∧
      (plain .keyed .down (List.replicate n 1)).din.length = n := by decide +kernel
theorem witness_DecryptRecoversThenAbsorbs :
    ∀ n ∈ [0, 24, 25], (plain .keyed .up (List.replicate n 1)).Ready ∧
      (plain .keyed .up (List.replicate n 1)).seq.smode = .keyed ∧
      (plain .keyed .up (List.replicate n 1)).din.length = n := by decide +kernel
theorem witness_DecryptUndoesEncrypt :
    (block Lane.zero .keyed .down adSst p3Plain).Ready ∧ (block Lane.zero .keyed .down adSst p3Plain).seq.smode = .keyed ∧
    (block Lane.zero .keyed .down adSst p3Plain).din.length = 25 := by decide +kernel
/-- One block in each mode, and none. -/
theorem witness_AbsorbChunkingInvariance :
    (plain .hash .up []).Ready ∧ (plain .hash .up []).seq.smode ≠ .none ∧
    (List.replicate 16 (0 : Byte)).length = 1 * 16 ∧ 0 < 1 ∧
    (plain .keyed .down []).Ready ∧ (plain .keyed .down []).seq.smode ≠ .none ∧
    (List.replicate 44 (0 : Byte)).length = 1 * 44 ∧ ([] : List Byte).length = 0 * 44 := by decide +kernel
theorem witness_SqueezeChunkingInvariance :
    (plain .keyed .down []).Ready ∧ (plain .keyed .down []).seq.smode ≠ .none ∧ (plain .keyed .down []).din = [] ∧
    0 < 1 ∧ 24 = 1 * 24 ∧ (plain .hash .down []).Ready ∧ (plain .hash .down []).seq.smode ≠ .none ∧
    (plain .hash .down []).din = [] ∧ 16 = 1 * 16 := by decide
/-- The four ways: reset, S.HASH, S.KEYED and S.RELEASE. -/
theorem witness_ModeChangesInFourWaysOnly :
    (after (step { plain .hash .up [] with pending := [.reset] })).seq.smode = .none ∧
    (after (step (sent 0x20 0 [] (plain .keyed .down [])))).seq.smode = .hash ∧
    (after (step (sent 0x21 0 [] (plain .hash .down [])))).seq.smode = .keyed ∧
    (after (step (sent 0x2F 0 [] (plain .keyed .down [])))).seq.smode = .none := by decide +kernel
/-- The empty and the non-empty operand of the two commands whose phase depends on it. -/
theorem witness_PhaseAfterEachCommand :
    (plain .hash .down []).Ready ∧
    exec (.sSqueezeMore 0) (plain .hash .down []) = .next (after (exec (.sSqueezeMore 0) (plain .hash .down []))) ∧
    (after (exec (.sSqueezeMore 0) (plain .hash .down []))).fault = false ∧
    (after (exec (.sSqueezeMore 1) (plain .hash .down []))).fault = false := by
  refine ⟨?_, exec_after _ _, ?_, ?_⟩ <;> decide +kernel
/-- A command that succeeds, and one that faults. -/
theorem witness_PermutationCountOfEachCommand :
    (plain .keyed .up []).Ready ∧
    exec .sRatchet (plain .keyed .up []) = .next (after (exec .sRatchet (plain .keyed .up []))) ∧
    (after (exec .sRatchet (plain .keyed .up []))).fault = false ∧
    (after (exec .sRatchet (plain .hash .up []))).fault = true := by
  refine ⟨?_, exec_after _ _, ?_, ?_⟩ <;> decide +kernel
theorem witness_EngineAndSpongeAreSeparate :
    exec .ePermute (block (laneOf [1]) .keyed .down keySst []) =
      .next (after (exec .ePermute (block (laneOf [1]) .keyed .down keySst []))) := exec_after _ _
theorem witness_EngineCommandsCannotSeeTheSponge :
    needsSponge (.eExtract 0 48) = false ∧
    exec (.eExtract 0 48) (block (laneOf [1]) .keyed .down keySst []) =
      .next (after (exec (.eExtract 0 48) (block (laneOf [1]) .keyed .down keySst []))) := ⟨rfl, exec_after _ _⟩
/-- A state with a sponge in use, and its step. -/
theorem witness_EveryStepKeepsTheInvariant :
    (sent 0x24 16 [] (block (laneOf [1]) .hash .down abcSst [])).Inv ∧
    step (sent 0x24 16 [] (block (laneOf [1]) .hash .down abcSst [])) =
      .next (after (step (sent 0x24 16 [] (block (laneOf [1]) .hash .down abcSst [])))) := by
  exact ⟨by decide +kernel, step_after _⟩
theorem witness_ResetMeetsTheInvariant :
    Config.LegalLanes 1 ∧ Config.LegalLanes 255 ∧ Config.LegalRounds 1 ∧ Config.LegalRounds 12 := by decide

end Sys2Proof.Tests
end

/-! PROOFS of the scope family (spec/00_scope.md). O59: every step keeps the invariant. The invariant without its part
about the port is `State.BlockInv`; every way a command can end (`respond`, `raiseFault`, `refuse`) settles the port, so a
command keeps the invariant as soon as its effect keeps `BlockInv`. A sponge loop does so because it keeps SMODE and leaves
the buffers as it found them (`Frame`), and because it never runs in NONE (check 6 of R181). -/

namespace Sys2Proof.Machine

/-! ### Rotation (R8) -/

/-- Settles O23: bit `i` comes from the right shift when `i < r`, from the left shift otherwise. -/
theorem rotationIsTowardTheTopBit : Obligations.RotationIsTowardTheTopBit := by
  intro v r i hr hi
  simp only [rotl32, BitVec.getLsbD_or, BitVec.getLsbD_shiftLeft, BitVec.getLsbD_ushiftRight]
  rcases Nat.lt_or_ge i r with h | h
  · have hsrc : (i + (32 - r)) % 32 = 32 - r + i := by omega
    simp [hsrc, h]
  · have hsrc : (i + (32 - r)) % 32 = i - r := by omega
    have hout : v.getLsbD (32 - r + i) = false := BitVec.getLsbD_of_ge _ _ (by omega)
    simp [hsrc, hout, hi, Nat.not_lt.mpr h]

/-! ### The invariant without the port -/

/-- The sequencer's part of the invariant: nothing in SST when no sponge is constructed, and the buffers zero-filled. -/
abbrev Sequencer.Settled (q : Sequencer) : Prop := q.EmptyWhenNone ∧ q.BuffersWiped

/-- What holds of the block during a transaction as well as between two: the invariant without the port. -/
abbrev State.BlockInv (s : State) : Prop := s.LegalBuild ∧ s.FaultCoherent ∧ s.seq.Settled

theorem inv_iff (s : State) : s.Inv ↔ s.BlockInv ∧ s.PortSettled := by
  simp only [State.Inv, State.BlockInv, Sequencer.Settled, and_assoc]

theorem respond_inv (out : List Byte) {s : State} (h : s.BlockInv) : (respond out s).Inv :=
  (inv_iff _).mpr ⟨h, rfl, rfl⟩

theorem refuse_inv {s : State} (h : s.BlockInv) : (refuse s).Inv := respond_inv [] h

theorem raiseFault_inv {c : Cause} {s : State} (hc : c ≠ .none) (h : s.BlockInv) : (raiseFault c s).Inv := by
  obtain ⟨hbuild, -, hseq⟩ := h
  exact respond_inv [] ⟨hbuild, iff_of_true rfl hc, hseq⟩

/-- RESP after reset, chosen as 0 (log entry 3), is STATUS after reset (R22). -/
theorem doReset_resp_eq_status (s : State) : s.doReset.resp = status s.doReset := by
  change (0 : Word) = statusWord false .none .none .up
  decide

theorem doReset_inv {s : State} (h : s.LegalBuild) : s.doReset.Inv := by
  obtain ⟨hlanes, hrounds⟩ := h
  have hn : s.doReset.nLanes = s.nLanes := List.length_replicate
  refine ⟨⟨hn ▸ hlanes, hrounds⟩, ?_, fun _ => ⟨rfl, rfl⟩, ⟨rfl, rfl⟩, rfl, doReset_resp_eq_status s⟩
  rw [State.FaultCoherent, doReset_fault, doReset_cause]
  decide

/-! ### The sequencer's operations -/

theorem Frame.wipeK {q q' : Sequencer} (h : Frame q q') (hk : q.kbuf = List.replicate kBufBytes 0) :
    Frame q q'.wipeK := ⟨h.smode, hk.symm, h.tbuf⟩

/-- With a sponge constructed, keeping SMODE and the buffers is enough. -/
theorem Frame.settled {q q' : Sequencer} (h : Frame q q') (hm : q.smode ≠ .none) (hq : q.Settled) : q'.Settled := by
  obtain ⟨-, hk, ht⟩ := hq
  exact ⟨fun hnone => absurd (h.smode.symm.trans hnone) hm, h.kbuf.trans hk, h.tbuf.trans ht⟩

theorem startSponge_settled (m : SMode) {q : Sequencer} (hq : q.Settled) : (startSponge m q).Settled := by
  obtain ⟨-, hwiped⟩ := hq
  exact ⟨fun _ => ⟨rfl, rfl⟩, hwiped⟩

theorem startKeyed_frame (klen idlen nlen : Nat) (ctr : Option Nat) (din : List Byte) (q : Sequencer) :
    Frame (startSponge .keyed q) (startKeyed klen idlen nlen ctr din q) := by
  have hiv := (absorbAny_facts (ivOf klen idlen nlen din) 44 dKey (startSponge .keyed q)).1
  unfold startKeyed
  cases ctr with
  | none => exact hiv
  | some n => exact hiv.trans (absorbAny_facts ..).1

theorem startKeyed_settled (klen idlen nlen : Nat) (ctr : Option Nat) (din : List Byte) {q : Sequencer}
    (hq : q.Settled) : (startKeyed klen idlen nlen ctr din q).Settled :=
  (startKeyed_frame ..).settled (by simp) (startSponge_settled .keyed hq)

/-- The ratchet uses T and wipes it (R147, R203). -/
theorem ratchet_frame {q : Sequencer} (hm : q.smode ≠ .none) (ht : q.tbuf = List.replicate tBufBytes 0) :
    Frame q (ratchet q) := by
  obtain ⟨hs, -⟩ := squeezeAny_facts 16 dRatchet q hm
  exact ⟨(absorbAny_facts ..).1.smode.trans hs.smode, (absorbAny_facts ..).1.kbuf.trans hs.kbuf, ht.symm⟩

/-- An encrypt block uses K and wipes it (R148, R203). -/
theorem encryptBlock_frame (cu : Byte) (p : List Byte) {q : Sequencer} (hk : q.kbuf = List.replicate kBufBytes 0) :
    Frame q (encryptBlock cu p q).1 := by
  rw [encryptBlock_state]
  exact ((up_frame ..).trans (down_frame ..)).wipeK hk

/-- A decrypt block uses K and wipes it (R149, R203). -/
theorem decryptBlock_frame (cu : Byte) (c : List Byte) {q : Sequencer} (hk : q.kbuf = List.replicate kBufBytes 0) :
    Frame q (decryptBlock cu c q).1 := by
  rw [decryptBlock_state]
  exact ((up_frame ..).trans (down_frame ..)).wipeK hk

/-- The block loop keeps what each of its blocks keeps when K is wiped before it. -/
theorem cryptLoop_frame {block : Byte → List Byte → Sequencer → Sequencer × List Byte}
    (hb : ∀ cu x {q : Sequencer}, q.kbuf = List.replicate kBufBytes 0 → Frame q (block cu x q).1) (cu : Byte)
    (xs : List (List Byte)) {q : Sequencer} (hk : q.kbuf = List.replicate kBufBytes 0) :
    Frame q (cryptLoop block cu xs q).1 := by
  induction xs generalizing cu q with
  | nil => exact Frame.refl q
  | cons x xs ih =>
    have hfirst := hb cu x hk
    rw [cryptLoop_cons]
    exact hfirst.trans (ih dZero (hfirst.kbuf.trans hk))

/-! ### One command -/

/-- A register read needs no sponge. -/
theorem needsSponge_of_isRegisterRead {i : Instr} (h : isRegisterRead i = true) : needsSponge i = false := by
  cases i with
  | rdStatus | rdConfig => rfl
  | _ => cases h

/-- When every condition has a cause and none is found, no condition holds (R181). -/
theorem conditions_false_of_firstCause {l : List (Bool × Cause)} (hl : ∀ p ∈ l, p.2 ≠ .none)
    (h : firstCause l = .none) : ∀ p ∈ l, p.1 = false := by
  induction l with
  | nil => simp
  | cons p l ih =>
    obtain ⟨b, c⟩ := p
    obtain ⟨hc, hrest⟩ := List.forall_mem_cons.mp hl
    rw [firstCause_cons] at h
    cases b with
    | true => exact absurd h hc
    | false => exact List.forall_mem_cons.mpr ⟨rfl, ih hrest h⟩

/-- Check 6 of R181: a command that needs a sponge passes the checks only when one is constructed. -/
theorem smode_ne_none_of_check {i : Instr} {s : State} (hc : check i s = .none) (hi : needsSponge i = true) :
    s.seq.smode ≠ .none := by
  have hcond : (needsSponge i && s.seq.smode == .none) = false :=
    conditions_false_of_firstCause (by simp) hc (needsSponge i && s.seq.smode == .none, .spongeUninit) (by simp)
  simpa [hi] using hcond

/-- A command keeps the invariant when its effect, run in a mode the command allows, keeps the block's part. -/
theorem runCommand_inv {i : Instr} {f : State → State × List Byte} {s t : State} (hs : s.BlockInv)
    (hf : (needsSponge i = true → s.seq.smode ≠ .none) → (f s).1.BlockInv) (h : runCommand i f s = .next t) :
    t.Inv := by
  rcases runCommand_cases h with ⟨rfl, hrun⟩ | ⟨rfl, -, hc⟩ | ⟨rfl, -⟩
  · refine respond_inv _ (hf fun hi => ?_)
    rcases hrun with ⟨-, hc⟩ | ⟨-, hr, -⟩
    · exact smode_ne_none_of_check hc hi
    · simp [needsSponge_of_isRegisterRead hr] at hi
  · exact raiseFault_inv hc hs
  · exact refuse_inv hs

/-- An effect on the lane file alone that keeps the number of lanes (R5). -/
theorem blockInv_lanes {s : State} (hs : s.BlockInv) {l : List Lane} (hl : l.length = s.lanes.length) :
    State.BlockInv { s with lanes := l } := by
  obtain ⟨⟨hlanes, hrounds⟩, hrest⟩ := hs
  refine ⟨⟨?_, hrounds⟩, hrest⟩
  change Config.LegalLanes l.length
  rwa [hl]

/-- A sponge command keeps the invariant when its effect keeps the sequencer's part. -/
theorem runSponge_inv {i : Instr} {f : List Byte → Sequencer → Sequencer × List Byte} {s t : State} (hs : s.BlockInv)
    (hf : (needsSponge i = true → s.seq.smode ≠ .none) → (f s.din s.seq).1.Settled)
    (h : runSponge i f s = .next t) : t.Inv := by
  have ⟨hbuild, hfault, _⟩ := hs
  exact runCommand_inv hs (fun hm => ⟨hbuild, hfault, hf hm⟩) h

/-- A command that needs a sponge keeps the invariant when it keeps SMODE and the buffers of a settled sequencer. -/
theorem runSponge_inv_of_frame {i : Instr} {f : List Byte → Sequencer → Sequencer × List Byte} {s t : State}
    (hs : s.BlockInv) (hi : needsSponge i = true)
    (hf : s.seq.smode ≠ .none → Frame s.seq (f s.din s.seq).1) (h : runSponge i f s = .next t) : t.Inv := by
  have ⟨_, _, hq⟩ := hs
  exact runSponge_inv hs (fun hm => (hf (hm hi)).settled (hm hi) hq) h

theorem exec_inv {i : Instr} {s t : State} (hs : s.BlockInv) (h : exec i s = .next t) : t.Inv := by
  have ⟨_, _, hq⟩ := hs
  have ⟨_, hk, ht⟩ := hq
  unfold exec at h
  cases i with
  | rdStatus | rdConfig | eExtract => exact runCommand_inv hs (fun _ => hs) h
  | ePermute | eZeroize => exact runCommand_inv hs (fun _ => blockInv_lanes hs (List.length_map _)) h
  | eAdd => exact runCommand_inv hs (fun _ => blockInv_lanes hs List.length_set) h
  | sHash | sRelease => exact runSponge_inv hs (fun _ => startSponge_settled _ hq) h
  | sKeyed => exact runSponge_inv hs (fun _ => startKeyed_settled _ _ _ _ _ hq) h
  | sAbsorb => exact runSponge_inv_of_frame hs rfl (fun _ => (absorbAny_facts ..).1) h
  | sAbsorbMore => exact runSponge_inv_of_frame hs rfl (fun _ => (foldl_absorbStep ..).1) h
  | sSqueeze | sSqueezeKey => exact runSponge_inv_of_frame hs rfl (fun hm => (squeezeAny_facts _ _ _ hm).1) h
  | sSqueezeMore => exact runSponge_inv_of_frame hs rfl (fun _ => (squeezeBlocks_facts ..).1) h
  | sRatchet => exact runSponge_inv_of_frame hs rfl (fun hm => ratchet_frame hm ht) h
  | sEncrypt => exact runSponge_inv_of_frame hs rfl (fun _ => cryptLoop_frame encryptBlock_frame _ _ hk) h
  | sDecrypt => exact runSponge_inv_of_frame hs rfl (fun _ => cryptLoop_frame decryptBlock_frame _ _ hk) h

/-! ### One step -/

theorem rejectCause_ne_none (e : Reject) : rejectCause e ≠ .none := by cases e <;> decide

theorem rejectCommand_inv (e : Reject) {s : State} (hs : s.BlockInv) : (rejectCommand e s).Inv := by
  unfold rejectCommand
  split
  · exact refuse_inv hs
  · exact raiseFault_inv (rejectCause_ne_none e) hs

/-- All a transaction can do: run the command it decodes to, or be rejected (R67). -/
theorem transact_cases {tr : Transaction} {s t : State} (h : transact tr s = .next t) :
    (∃ i, decode tr.cmd tr.len = .ok i ∧ exec i { s with din := tr.din } = .next t) ∨
    (∃ e, decode tr.cmd tr.len = .error e ∧ t = rejectCommand e { s with din := tr.din }) := by
  unfold transact at h
  cases hd : decode tr.cmd tr.len with
  | ok i => exact .inl ⟨i, rfl, by rwa [hd] at h⟩
  | error e =>
    rw [hd] at h
    exact .inr ⟨e, rfl, (Host.Outcome.next.inj h).symm⟩

theorem transact_inv {tr : Transaction} {s t : State} (hs : s.BlockInv) (h : transact tr s = .next t) : t.Inv := by
  rcases transact_cases h with ⟨i, -, hexec⟩ | ⟨e, -, rfl⟩
  · exact exec_inv (s := { s with din := tr.din }) hs hexec
  · exact rejectCommand_inv e (s := { s with din := tr.din }) hs

/-- All a step can do: wait, reset, or perform the next transaction (R67, R68). -/
theorem step_cases {s t : State} (h : step s = .next t) :
    (s.pending = [] ∧ t = s) ∨
    (∃ rest, s.pending = .reset :: rest ∧ t = State.doReset { s with pending := rest }) ∨
    (∃ tr rest, s.pending = .issue tr :: rest ∧ transact tr { s with pending := rest } = .next t) := by
  unfold step takeAction at h
  split at h
  · next hp => exact .inl ⟨hp, (Host.Outcome.next.inj h).symm⟩
  · next rest hp => exact .inr (.inl ⟨rest, hp, (Host.Outcome.next.inj h).symm⟩)
  · next tr rest hp => exact .inr (.inr ⟨tr, rest, hp, h⟩)

/-- Settles O59, by the three things a step can do. -/
theorem everyStepKeepsTheInvariant : Obligations.EveryStepKeepsTheInvariant := by
  intro s t hs h
  have ⟨hblock, _⟩ := (inv_iff s).mp hs
  have ⟨hbuild, _⟩ := hblock
  rcases step_cases h with ⟨-, rfl⟩ | ⟨rest, -, rfl⟩ | ⟨tr, rest, -, htr⟩
  · exact hs
  · exact doReset_inv (s := { s with pending := rest }) hbuild
  · exact transact_inv (s := { s with pending := rest }) hblock htr

end Sys2Proof.Machine

/-! PROOFS of the state family (spec/10_state.md). What a command does to the block's storage is said once, in
`runCommand_sameStorage`: after it, the storage is what the command's effect made of it, or untouched. Each statement about
every command then reads off the effects. STATUS and CONFIG are sums because their fields do not overlap. -/

namespace Sys2Proof.Machine

/-! ### STATUS and CONFIG as sums (R17, R18) -/

/-- A field placed above all bits of a word, and within 32 bits, is added to it. -/
theorem toNat_or_field {x : Word} {a b k : Nat} (hx : x.toNat = a) (ha : a < 2 ^ k) (hb : b * 2 ^ k < 2 ^ 32) :
    (x ||| BitVec.ofNat 32 b <<< k).toNat = a + b * 2 ^ k := by
  have hb' : b < 2 ^ 32 := (Nat.le_mul_of_pos_right b (Nat.two_pow_pos k)).trans_lt hb
  rw [BitVec.toNat_or, BitVec.toNat_shiftLeft, BitVec.toNat_ofNat, hx, Nat.mod_eq_of_lt hb', Nat.shiftLeft_eq,
    Nat.mod_eq_of_lt hb, ← Nat.shiftLeft_eq, Nat.or_comm, ← Nat.shiftLeft_add_eq_or_of_lt ha, Nat.add_comm]

theorem Cause.code_le (c : Cause) : c.code ≤ 9 := by cases c <;> decide

theorem SMode.code_le (m : SMode) : m.code ≤ 2 := by cases m <;> decide

theorem SPhase.code_le (p : SPhase) : p.code ≤ 1 := by cases p <;> decide

theorem toNat_statusWord (f : Bool) (c : Cause) (m : SMode) (p : SPhase) :
    (statusWord f c m p).toNat = f.toNat + c.code * 2 ^ 4 + m.code * 2 ^ 8 + p.code * 2 ^ 10 := by
  have hf := Bool.toNat_le f
  have hc := c.code_le
  have hm := m.code_le
  have hp := p.code_le
  have h0 : (BitVec.ofNat 32 f.toNat).toNat = f.toNat := Nat.mod_eq_of_lt (by omega)
  have h4 := toNat_or_field h0 (b := c.code) (k := 4) (by omega) (by omega)
  have h8 := toNat_or_field h4 (b := m.code) (k := 8) (by omega) (by omega)
  exact toNat_or_field h8 (by omega) (by omega)

theorem toNat_configWord {n r : Nat} (hn : Config.LegalLanes n) (hr : Config.LegalRounds r) :
    (configWord n r).toNat = n + r * 2 ^ 8 + 12 * 2 ^ 12 + 48 * 2 ^ 16 + 1 * 2 ^ 24 := by
  obtain ⟨-, hn⟩ := hn
  obtain ⟨-, hr⟩ := hr
  have h0 : (BitVec.ofNat 32 n).toNat = n := Nat.mod_eq_of_lt (by omega)
  have h8 := toNat_or_field h0 (b := r) (k := 8) (by omega) (by omega)
  have h12 := toNat_or_field h8 (b := 12) (k := 12) (by omega) (by omega)
  have h16 := toNat_or_field h12 (b := 48) (k := 16) (by omega) (by omega)
  exact toNat_or_field h16 (by omega) (by omega)

/-- Settles O18: the codes fit their fields, and STATUS is their sum. -/
theorem statusFieldsStandWhereTheyShould : Obligations.StatusFieldsStandWhereTheyShould := by
  intro s
  have hfault : s.fault.toNat = if s.fault then 1 else 0 := by cases s.fault <;> rfl
  have hsum := toNat_statusWord s.fault s.cause s.seq.smode s.seq.sphase
  rw [hfault, Nat.mul_comm _ (2 ^ 4), Nat.mul_comm _ (2 ^ 8), Nat.mul_comm _ (2 ^ 10)] at hsum
  exact hsum

/-- Settles O19: N and R of a legal build fit their fields. -/
theorem configFieldsStandWhereTheyShould : Obligations.ConfigFieldsStandWhereTheyShould := by
  intro s ⟨hlanes, hrounds⟩
  exact toNat_configWord hlanes hrounds

/-! ### The state after reset (R22) -/

@[simp] theorem afterReset_nLanes (n r : Nat) : (State.afterReset n r).nLanes = n := List.length_replicate

theorem zero_word (w : Nat) : Lane.zero.word w = 0 := by
  unfold Lane.word
  split <;> rfl

theorem afterReset_lane (n r l : Nat) : (State.afterReset n r).lane l = Lane.zero := by
  rw [State.lane, List.getD_eq_getElem?_getD]
  exact List.getElem?_getD_replicate_default_eq ..

/-- Reset changes nothing right after reset (R200). -/
theorem doReset_afterReset (n r : Nat) : (State.afterReset n r).doReset = State.afterReset n r := by
  rw [State.doReset, afterReset_nLanes]
  rfl

theorem afterReset_inv {n r : Nat} (hn : Config.LegalLanes n) (hr : Config.LegalRounds r) :
    (State.afterReset n r).Inv := by
  rw [← doReset_afterReset]
  exact doReset_inv ⟨(afterReset_nLanes n r).symm ▸ hn, hr⟩

/-- Settles O9: every word is 0, and CONFIG is O19's sum. -/
theorem resetValuesAreTheSpecs : Obligations.ResetValuesAreTheSpecs := by
  intro n r
  have hstatus : status (State.afterReset n r) = 0 := by
    rw [← doReset_afterReset, ← doReset_resp_eq_status, doReset_resp]
  refine ⟨afterReset_nLanes n r, fun l _ w _ => ?_, fun w _ => zero_word w, rfl, rfl, rfl, rfl, hstatus,
    fun hn hr => ?_⟩
  · rw [afterReset_lane, zero_word]
  · rw [config, afterReset_nLanes]
    exact toNat_configWord hn hr

/-- Settles O60: a state after reset is its own reset, and reset keeps the invariant. -/
theorem resetMeetsTheInvariant : Obligations.ResetMeetsTheInvariant :=
  ⟨afterReset_inv (by decide) (by decide), fun _ _ => afterReset_inv⟩

/-! ### The faulted state (R16, R183, R184) -/

/-- In the faulted state a command only answers, when it is no register read or a read that writes no state (R183). -/
theorem runCommand_of_faulted {i : Instr} {f : State → State × List Byte} {s t : State} (hs : s.fault = true)
    (hread : isRegisterRead i = true → (f s).1 = s) (h : runCommand i f s = .next t) : ∃ out, t = respond out s := by
  rcases runCommand_cases h with ⟨rfl, ⟨hf, -⟩ | ⟨-, hr, -⟩⟩ | ⟨-, hf, -⟩ | ⟨rfl, -⟩
  · simp [hs] at hf
  · exact ⟨(f s).2, by rw [hread hr]⟩
  · simp [hs] at hf
  · exact ⟨[], rfl⟩

theorem exec_of_faulted {i : Instr} {s t : State} (hs : s.fault = true) (h : exec i s = .next t) :
    ∃ out, t = respond out s := by
  unfold exec at h
  cases i with
  | rdStatus | rdConfig => exact runCommand_of_faulted hs (fun _ => rfl) h
  | _ => exact runCommand_of_faulted hs (by nofun) h

theorem transact_of_faulted {tr : Transaction} {s t : State} (hs : s.fault = true) (h : transact tr s = .next t) :
    ∃ out, t = respond out { s with din := tr.din } := by
  rcases transact_cases h with ⟨i, -, hexec⟩ | ⟨e, -, rfl⟩
  · exact exec_of_faulted (s := { s with din := tr.din }) hs hexec
  · exact ⟨[], if_pos hs⟩

/-- Settles O16: a transaction in the faulted state only answers, and waiting changes nothing. -/
theorem faultIsStickyUntilReset : Obligations.FaultIsStickyUntilReset := by
  intro s t hs h
  rcases step_cases h with ⟨-, rfl⟩ | ⟨rest, hp, -⟩ | ⟨tr, rest, -, htr⟩
  · exact .inr ⟨hs, rfl, rfl, rfl⟩
  · exact .inl ⟨rest, hp⟩
  · obtain ⟨out, rfl⟩ := transact_of_faulted (s := { s with pending := rest }) hs htr
    exact .inr ⟨hs, rfl, rfl, rfl⟩

/-! ### What a command does to the storage (R12, R20, R23) -/

/-- Lanes, R, the sequencer and the host's later actions are the same. -/
structure SameStorage (s t : State) : Prop where
  lanes : t.lanes = s.lanes
  rounds : t.rounds = s.rounds
  seq : t.seq = s.seq
  pending : t.pending = s.pending

/-- After a command the storage is what its effect made of it, or untouched (R67, R182, R183). -/
theorem runCommand_sameStorage {i : Instr} {f : State → State × List Byte} {s t : State}
    (h : runCommand i f s = .next t) : SameStorage (f s).1 t ∨ SameStorage s t := by
  rcases runCommand_cases h with ⟨rfl, -⟩ | ⟨rfl, -⟩ | ⟨rfl, -⟩
  · exact .inl ⟨rfl, rfl, rfl, rfl⟩
  · exact .inr ⟨rfl, rfl, rfl, rfl⟩
  · exact .inr ⟨rfl, rfl, rfl, rfl⟩

/-- A command whose effect writes no state writes no storage. -/
theorem runCommand_readOnly {i : Instr} {f : State → State × List Byte} {s t : State} (hf : (f s).1 = s)
    (h : runCommand i f s = .next t) : SameStorage s t := by
  rcases runCommand_sameStorage h with hdone | hkept
  · rwa [hf] at hdone
  · exact hkept

/-- A command whose effect is on the lane file alone, and keeps the number of lanes (R5). -/
theorem runCommand_lanesOnly {i : Instr} {f : State → State × List Byte} {s t : State} {l : List Lane}
    (hf : (f s).1 = { s with lanes := l }) (hl : l.length = s.lanes.length) (h : runCommand i f s = .next t) :
    t.rounds = s.rounds ∧ t.lanes.length = s.lanes.length ∧ t.pending = s.pending ∧ t.seq = s.seq := by
  rcases runCommand_sameStorage h with hdone | ⟨hlanes, hr, hq, hp⟩
  · rw [hf] at hdone
    obtain ⟨hlanes, hr, hq, hp⟩ := hdone
    exact ⟨hr, (congrArg List.length hlanes).trans hl, hp, hq⟩
  · exact ⟨hr, congrArg List.length hlanes, hp, hq⟩

/-- After a sponge command the sequencer is what its effect made of it, or untouched, and no lane is written (R12). -/
theorem runSponge_storage {i : Instr} {f : List Byte → Sequencer → Sequencer × List Byte} {s t : State}
    (h : runSponge i f s = .next t) :
    t.lanes = s.lanes ∧ t.rounds = s.rounds ∧ t.pending = s.pending ∧
      (t.seq = (f s.din s.seq).1 ∨ t.seq = s.seq) := by
  rcases runCommand_sameStorage h with ⟨hl, hr, hq, hp⟩ | ⟨hl, hr, hq, hp⟩
  · exact ⟨hl, hr, hp, .inl hq⟩
  · exact ⟨hl, hr, hp, .inr hq⟩

/-- Settles O57: an engine command's effect is on the lanes alone, a sponge command's on the sequencer alone. -/
theorem engineAndSpongeAreSeparate : Obligations.EngineAndSpongeAreSeparate := by
  intro i s t h
  unfold exec at h
  cases i with
  | rdStatus | rdConfig | eExtract =>
    have hkept := runCommand_readOnly rfl h
    exact ⟨hkept.rounds, congrArg List.length hkept.lanes, hkept.pending, hkept.seq, hkept.lanes⟩
  | ePermute | eZeroize => exact runCommand_lanesOnly rfl (List.length_map _) h
  | eAdd => exact runCommand_lanesOnly rfl List.length_set h
  | _ =>
    obtain ⟨hl, hr, hp, -⟩ := runSponge_storage h
    exact ⟨hr, congrArg List.length hl, hp, hl⟩

/-! ### SMODE (R15) -/

theorem squeezeAny_frame (n : Nat) (cu : Byte) (q : Sequencer) : Frame q (squeezeAny n cu q).1 := by
  rw [squeezeAny_eq]
  exact (up_frame ..).trans (squeezeBlocks_facts ..).1

theorem ratchet_smode (q : Sequencer) : (ratchet q).smode = q.smode :=
  (absorbAny_facts ..).1.smode.trans (squeezeAny_frame ..).smode

theorem encryptBlock_smode (cu : Byte) (p : List Byte) (q : Sequencer) : (encryptBlock cu p q).1.smode = q.smode := by
  rw [encryptBlock_state]
  exact (up_frame (some p.length) cu q).smode

theorem decryptBlock_smode (cu : Byte) (c : List Byte) (q : Sequencer) : (decryptBlock cu c q).1.smode = q.smode := by
  rw [decryptBlock_state]
  exact (up_frame (some c.length) cu q).smode

theorem cryptLoop_smode {block : Byte → List Byte → Sequencer → Sequencer × List Byte}
    (hb : ∀ cu x q, (block cu x q).1.smode = q.smode) (cu : Byte) (xs : List (List Byte)) (q : Sequencer) :
    (cryptLoop block cu xs q).1.smode = q.smode := by
  induction xs generalizing cu q with
  | nil => rfl
  | cons x xs ih =>
    rw [cryptLoop_cons]
    exact (ih ..).trans (hb ..)

/-- A sponge command that changes SMODE has had its effect. -/
theorem runSponge_changes_smode {i : Instr} {f : List Byte → Sequencer → Sequencer × List Byte} {s t : State}
    (h : runSponge i f s = .next t) (hne : t.seq.smode ≠ s.seq.smode) : t.seq.smode = (f s.din s.seq).1.smode := by
  obtain ⟨-, -, -, hq | hq⟩ := runSponge_storage h
  · rw [hq]
  · exact absurd (congrArg Sequencer.smode hq) hne

/-- A sponge command that keeps SMODE in its effect keeps it on every outcome. -/
theorem runSponge_smode {i : Instr} {f : List Byte → Sequencer → Sequencer × List Byte} {s t : State}
    (hf : (f s.din s.seq).1.smode = s.seq.smode) (h : runSponge i f s = .next t) : t.seq.smode = s.seq.smode :=
  not_not.mp fun hne => hne ((runSponge_changes_smode h hne).trans hf)

/-- The three commands that change SMODE, and to what (R15). -/
theorem exec_changes_smode {i : Instr} {s t : State} (h : exec i s = .next t) (hne : t.seq.smode ≠ s.seq.smode) :
    i = .sHash ∧ t.seq.smode = .hash ∨ (∃ k d n c, i = .sKeyed k d n c) ∧ t.seq.smode = .keyed ∨
      i = .sRelease ∧ t.seq.smode = .none := by
  have hsep := engineAndSpongeAreSeparate i s t h
  unfold exec at h
  cases i with
  | rdStatus | rdConfig | eExtract =>
    obtain ⟨-, -, -, hq, -⟩ := hsep
    exact absurd (congrArg Sequencer.smode hq) hne
  | ePermute | eAdd | eZeroize =>
    obtain ⟨-, -, -, hq⟩ := hsep
    exact absurd (congrArg Sequencer.smode hq) hne
  | sHash => exact .inl ⟨rfl, runSponge_changes_smode h hne⟩
  | sKeyed k d n c =>
    exact .inr (.inl ⟨⟨k, d, n, c, rfl⟩, (runSponge_changes_smode h hne).trans (startKeyed_frame ..).smode⟩)
  | sRelease => exact .inr (.inr ⟨rfl, runSponge_changes_smode h hne⟩)
  | sAbsorb => exact absurd (runSponge_smode (absorbAny_facts ..).1.smode h) hne
  | sAbsorbMore => exact absurd (runSponge_smode (foldl_absorbStep ..).1.smode h) hne
  | sSqueeze | sSqueezeKey => exact absurd (runSponge_smode (squeezeAny_frame ..).smode h) hne
  | sSqueezeMore => exact absurd (runSponge_smode (squeezeBlocks_facts ..).1.smode h) hne
  | sRatchet => exact absurd (runSponge_smode (ratchet_smode _) h) hne
  | sEncrypt => exact absurd (runSponge_smode (cryptLoop_smode encryptBlock_smode ..) h) hne
  | sDecrypt => exact absurd (runSponge_smode (cryptLoop_smode decryptBlock_smode ..) h) hne

/-- A rejection leaves the sequencer alone (R182, R183). -/
theorem rejectCommand_seq (e : Reject) (s : State) : (rejectCommand e s).seq = s.seq := by
  unfold rejectCommand
  split <;> rfl

/-- Settles O54: waiting and a rejection keep SMODE, and only three commands change it. -/
theorem modeChangesInFourWaysOnly : Obligations.ModeChangesInFourWaysOnly := by
  intro s t h hne
  rcases step_cases h with ⟨-, rfl⟩ | ⟨rest, hp, rfl⟩ | ⟨tr, rest, hp, htr⟩
  · exact absurd rfl hne
  · exact .inl ⟨rest, hp, rfl⟩
  · refine .inr ⟨tr, rest, hp, ?_⟩
    rcases transact_cases htr with ⟨i, hd, hexec⟩ | ⟨e, -, rfl⟩
    · rcases exec_changes_smode hexec hne with ⟨rfl, hm⟩ | ⟨⟨k, d, n, c, rfl⟩, hm⟩ | ⟨rfl, hm⟩
      · exact .inl ⟨hd, hm⟩
      · exact .inr (.inl ⟨⟨k, d, n, c, hd⟩, hm⟩)
      · exact .inr (.inr ⟨hd, hm⟩)
    · exact absurd (congrArg Sequencer.smode (rejectCommand_seq ..)) hne

/-! ### SST is private (R12, R43) -/

/-- The block with another SST. -/
def State.withSst (s : State) (secret : Lane) : State := { s with seq := { s.seq with sst := secret } }

/-- The lanes and the fields of STATUS are the same; SST need not be. -/
structure SameVisible (s t : State) : Prop where
  lanes : t.lanes = s.lanes
  fault : t.fault = s.fault
  cause : t.cause = s.cause
  smode : t.seq.smode = s.seq.smode
  sphase : t.seq.sphase = s.seq.sphase

theorem sameVisible_withSst (s : State) (secret : Lane) : SameVisible s (s.withSst secret) :=
  ⟨rfl, rfl, rfl, rfl, rfl⟩

theorem SameVisible.status {s t : State} (h : SameVisible s t) : status t = status s := by
  obtain ⟨-, hf, hc, hm, hp⟩ := h
  simp only [Machine.status, hf, hc, hm, hp]

/-- The two blocks answer alike, and stand alike outside the sequencer. -/
def SameAnswer (s t : State) : Prop :=
  t.dout = s.dout ∧ t.resp = s.resp ∧ t.lanes = s.lanes ∧ t.fault = s.fault ∧ t.cause = s.cause

theorem SameVisible.respond {s t : State} (h : SameVisible s t) (out : List Byte) :
    SameAnswer (respond out s) (respond out t) := ⟨rfl, h.status, h.lanes, h.fault, h.cause⟩

/-- The frame of a command does not look at SST: when the effect does not either, nor does the answer. -/
theorem runCommand_withSst {i : Instr} {f : State → State × List Byte} {s t : State} {secret : Lane}
    (hout : (f (s.withSst secret)).2 = (f s).2) (hst : SameVisible (f s).1 (f (s.withSst secret)).1)
    (h : runCommand i f s = .next t) : ∃ t', runCommand i f (s.withSst secret) = .next t' ∧ SameAnswer t t' := by
  have hdone : SameAnswer (respond (f s).2 (f s).1) (respond (f (s.withSst secret)).2 (f (s.withSst secret)).1) :=
    hout ▸ hst.respond _
  rcases runCommand_cases h with ⟨rfl, ⟨hf, hc⟩ | ⟨hf, hr, hd⟩⟩ | ⟨rfl, hf, hc⟩ | ⟨rfl, hf, hr⟩
  · exact ⟨_, runCommand_passes hf hc, hdone⟩
  · exact ⟨_, runCommand_reads hf hr hd, hdone⟩
  · exact ⟨_, runCommand_faults hf hc, rfl, rfl, rfl, rfl, rfl⟩
  · exact ⟨_, runCommand_refuses hf hr, (sameVisible_withSst s secret).respond []⟩

/-- Settles O58: an engine command's effect reads no SST, and a construction or a release begins by zeroing it. -/
theorem engineCommandsCannotSeeTheSponge : Obligations.EngineCommandsCannotSeeTheSponge := by
  intro i s t secret hi h
  unfold exec at h ⊢
  cases i with
  | rdStatus | rdConfig | ePermute | eAdd | eExtract | eZeroize | sHash | sKeyed | sRelease =>
    exact runCommand_withSst rfl ⟨rfl, rfl, rfl, rfl, rfl⟩ h
  | _ => nomatch hi

end Sys2Proof.Machine

/-! PROOFS of the memory family (spec/20_memory.md). A word is the sum of its bytes because it is its bytes put together
(`wordOfBytes_wordByte`), and putting bytes together is adding them at their places. E.ADD undoes itself as XOR does:
it completes in range whatever the lane holds, so the second one runs on what the first one left. -/

namespace Sys2Proof.Machine

/-! ### The byte view (R31, R33, R36) -/

theorem wordByte_eq_setWidth (w : Word) (j : Nat) : wordByte w j = (w >>> (8 * j)).setWidth 8 :=
  BitVec.setWidth_ushiftRight_eq_extractLsb.symm

theorem toNat_append_byte {n : Nat} (x : BitVec n) (b : Byte) : (x ++ b).toNat = x.toNat * 2 ^ 8 + b.toNat := by
  rw [BitVec.toNat_append, ← Nat.shiftLeft_add_eq_or_of_lt b.isLt, Nat.shiftLeft_eq]

theorem toNat_wordOfBytes (b0 b1 b2 b3 : Byte) : (wordOfBytes b0 b1 b2 b3).toNat =
    b0.toNat + b1.toNat * 2 ^ 8 + b2.toNat * 2 ^ 16 + b3.toNat * 2 ^ 24 := by
  simp only [wordOfBytes, toNat_append_byte]
  omega

/-- A word is the sum of its four bytes, each at its place (R33). -/
theorem toNat_eq_sum_wordByte (w : Word) : w.toNat = (wordByte w 0).toNat + (wordByte w 1).toNat * 2 ^ 8 +
    (wordByte w 2).toNat * 2 ^ 16 + (wordByte w 3).toNat * 2 ^ 24 := by
  rw [← toNat_wordOfBytes, wordOfBytes_wordByte]

/-- Byte `j` of word `w` is byte `4w + j` of the byte view (R31). -/
theorem byte_eq_wordByte (s : Lane) (w : Nat) {j : Nat} (hj : j < 4) : s.byte (4 * w + j) = wordByte (s.word w) j := by
  rw [Lane.byte, Nat.mul_add_div (by decide), Nat.div_eq_of_lt hj, Nat.mul_add_mod, Nat.mod_eq_of_lt hj, Nat.add_zero]

/-- Settles O22: the formula of R31, its inverse word by word, and `Lane.ofBytes`. -/
theorem wordsAndBytesAreTwoReadings : Obligations.WordsAndBytesAreTwoReadings := by
  refine ⟨fun s k _ => wordByte_eq_setWidth .., fun s w _ => ?_, fun f => ⟨Lane.ofBytes f, fun k hk => byte_ofBytes f hk⟩⟩
  have h0 : s.byte (4 * w) = wordByte (s.word w) 0 := byte_eq_wordByte s w (j := 0) (by decide)
  rw [h0, byte_eq_wordByte s w (by decide), byte_eq_wordByte s w (by decide), byte_eq_wordByte s w (by decide)]
  exact toNat_eq_sum_wordByte (s.word w)

/-! ### The lane file (R10) -/

/-- A lane reads back as it was written. -/
theorem lane_setLane_self {s : State} {l : Nat} (hl : l < s.lanes.length) (v : Lane) : (s.setLane l v).lane l = v := by
  simp [State.lane, hl]

/-- Writing what a lane already holds changes nothing. -/
theorem set_lane_self {s : State} {l : Nat} (hl : l < s.lanes.length) : s.lanes.set l (s.lane l) = s.lanes := by
  simp [State.lane, hl]

/-! ### E.ADD (R34, R41, R100) -/

/-- XORing the same bytes into the same place twice changes nothing (R41). -/
theorem xorBytes_xorBytes_self (s : Lane) (k : Nat) (x : List Byte) : xorBytes (xorBytes s k x) k x = s := by
  refine Lane.ext_byte fun m hm => ?_
  rw [byte_xorBytes _ _ _ hm, byte_xorBytes _ _ _ hm]
  split
  · rw [BitVec.xor_assoc, BitVec.xor_self, BitVec.xor_zero]
  · rfl

/-- An E.ADD in range, with its DIN, passes every check (R181). -/
theorem check_eAdd {s : State} {lane off len : Nat} (hdin : s.din.length = len) (hlane : lane < s.lanes.length)
    (hend : off + len ≤ 48) : check (.eAdd lane off len) s = .none := by
  have hrange : ¬s.lanes.length ≤ lane := Nat.not_le.mpr hlane
  have hpast : ¬48 < off + len := Nat.not_lt.mpr hend
  simp [check, firstCause, dinLen, namesLaneFrom, addPastEnd, extractPastEnd, needsSponge, needsKeyed, ivTooLong,
    State.nLanes, hdin, hrange, hpast]

/-- An E.ADD in range completes: DIN is XORed into its lane, and DOUT is empty (R100). -/
theorem exec_eAdd {s : State} {lane off len : Nat} (hfault : s.fault = false) (hdin : s.din.length = len)
    (hlane : lane < s.lanes.length) (hend : off + len ≤ 48) :
    exec (.eAdd lane off len) s = .next (respond [] (s.setLane lane (xorBytes (s.lane lane) off s.din))) :=
  runCommand_passes hfault (check_eAdd hdin hlane hend)

/-- In the lane file an XOR left, the same XOR restores the lanes (R41). -/
theorem lanes_xorBytes_twice {s t : State} {l k : Nat} {x : List Byte} (hl : l < s.lanes.length)
    (ht : t.lanes = (s.setLane l (xorBytes (s.lane l) k x)).lanes) :
    (t.setLane l (xorBytes (t.lane l) k x)).lanes = s.lanes := by
  have hlane : t.lane l = xorBytes (s.lane l) k x := by rw [State.lane, ht]; exact lane_setLane_self hl _
  rw [setLane_lanes, hlane, xorBytes_xorBytes_self, ht, setLane_lanes, List.set_set, set_lane_self hl]

/-- Settles O33: the second E.ADD finds what the first one wrote, and XORs the same bytes into it. -/
theorem addTwiceRestoresTheLanes : Obligations.AddTwiceRestoresTheLanes := by
  intro s lane off len ⟨hfault, _⟩ hdin hlane hend
  have hlane' : lane < (s.lanes.set lane (xorBytes (s.lane lane) off s.din)).length := by rwa [List.length_set]
  exact ⟨_, _, exec_eAdd hfault hdin hlane hend, exec_eAdd hfault hdin hlane' hend, lanes_xorBytes_twice hlane rfl⟩

end Sys2Proof.Machine

/-! PROOFS of the encoding family (spec/30_encoding.md). A field of CMD is a quotient and remainder of its number
(`field_eq_div_mod`), and an encoded CMD is the sum of its fields, each at its place (`toNat_cmdPlain`, `toNat_cmdB`,
`toNat_cmdK`): both round trips are then arithmetic, `decode_encode` from a command to its words and `encodes_of_decode`
back. The other statements about encoding follow from these two. -/

namespace Sys2Proof

open Sys2Proof.Machine

/-! ### CMD as the sum of its fields (R52 to R55, R61) -/

theorem toNat_append_eq_add {n k : Nat} (x : BitVec n) (y : BitVec k) : (x ++ y).toNat = x.toNat * 2 ^ k + y.toNat := by
  rw [BitVec.toNat_append, ← Nat.shiftLeft_add_eq_or_of_lt y.isLt, Nat.shiftLeft_eq]

theorem toNat_ofNat_of_lt {n k : Nat} (h : k < 2 ^ n) : (BitVec.ofNat n k).toNat = k := Nat.mod_eq_of_lt h

theorem fits_iff {width n : Nat} : fits width n = true ↔ n < 2 ^ width := decide_eq_true_iff

theorem field_eq_div_mod (w : Word) (lo n : Nat) : field w lo n = w.toNat / 2 ^ lo % 2 ^ n := by
  rw [field, BitVec.extractLsb'_toNat, Nat.shiftRight_eq_div_pow]

theorem field_lt (w : Word) (lo n : Nat) : field w lo n < 2 ^ n := BitVec.isLt _

/-- A field of one bit, read as CTRP is (R55). -/
theorem toNat_field_one (w : Word) (lo : Nat) : (field w lo 1 == 1).toNat = field w lo 1 :=
  (by decide : ∀ b : BitVec 1, (b.toNat == 1).toNat = b.toNat) _

theorem toNat_of_opcode {w : Word} {opc : Byte} (h : w.extractLsb' 0 8 = opc) : opc.toNat = w.toNat % 2 ^ 8 := by
  have hfield := field_eq_div_mod w 0 8
  rwa [Nat.pow_zero, Nat.div_one, field, h] at hfield

theorem toNat_cmdPlain (opc : Byte) : (cmdPlain opc).toNat = opc.toNat := by
  rw [cmdPlain, toNat_append_eq_add, BitVec.toNat_ofNat]
  omega

theorem toNat_cmdB (opc : Byte) {lane off : Nat} (hlane : lane < 2 ^ 8) (hoff : off < 2 ^ 6) :
    (cmdB opc lane off).toNat = opc.toNat + lane * 2 ^ 8 + off * 2 ^ 16 := by
  simp only [cmdB, toNat_append_eq_add, toNat_ofNat_of_lt hlane, toNat_ofNat_of_lt hoff, BitVec.toNat_ofNat]
  omega

theorem toNat_cmdK (opc : Byte) {klen idlen nlen : Nat} (ctrp : Bool) (hk : klen < 2 ^ 6) (hid : idlen < 2 ^ 6)
    (hn : nlen < 2 ^ 6) : (cmdK opc klen idlen nlen ctrp).toNat =
      opc.toNat + klen * 2 ^ 8 + idlen * 2 ^ 14 + nlen * 2 ^ 20 + ctrp.toNat * 2 ^ 26 := by
  simp only [cmdK, toNat_append_eq_add, toNat_ofNat_of_lt hk, toNat_ofNat_of_lt hid, toNat_ofNat_of_lt hn,
    BitVec.toNat_ofNat, BitVec.toNat_ofBool]
  omega

/-! ### From a command to its words and back (R65) -/

theorem opcode_cmdB (opc : Byte) (lane off : Nat) : (cmdB opc lane off).extractLsb' 0 8 = opc :=
  BitVec.extractLsb'_append_eq_right

theorem opcode_cmdK (opc : Byte) (klen idlen nlen : Nat) (ctrp : Bool) :
    (cmdK opc klen idlen nlen ctrp).extractLsb' 0 8 = opc := BitVec.extractLsb'_append_eq_right

/-- LANE, OFF and the reserved bits of format B, with OFF a field and with OFF reserved (R53). -/
theorem fields_cmdB (opc : Byte) {lane off : Nat} (hlane : lane < 2 ^ 8) (hoff : off < 2 ^ 6) :
    field (cmdB opc lane off) 8 8 = lane ∧ field (cmdB opc lane off) 16 6 = off ∧
      field (cmdB opc lane off) 22 10 = 0 ∧ field (cmdB opc lane 0) 16 16 = 0 := by
  have hopc := opc.isLt
  simp only [field_eq_div_mod, toNat_cmdB opc hlane hoff, toNat_cmdB opc hlane (by decide : 0 < 2 ^ 6)]
  omega

/-- KLEN, IDLEN, NLEN, CTRP and the reserved bits of format K (R55). -/
theorem fields_cmdK (opc : Byte) {klen idlen nlen : Nat} (ctrp : Bool) (hk : klen < 2 ^ 6) (hid : idlen < 2 ^ 6)
    (hn : nlen < 2 ^ 6) :
    field (cmdK opc klen idlen nlen ctrp) 8 6 = klen ∧ field (cmdK opc klen idlen nlen ctrp) 14 6 = idlen ∧
      field (cmdK opc klen idlen nlen ctrp) 20 6 = nlen ∧ field (cmdK opc klen idlen nlen ctrp) 26 1 = ctrp.toNat ∧
      field (cmdK opc klen idlen nlen ctrp) 27 5 = 0 := by
  have hopc := opc.isLt
  have hctrp := Bool.toNat_le ctrp
  simp only [field_eq_div_mod, toNat_cmdK opc ctrp hk hid hn]
  omega

theorem decodeL_cmdPlain (mk : Nat → Instr) {opc : Byte} {len : Nat} (h : len < 2 ^ 32) :
    decodeL mk (cmdPlain opc) (BitVec.ofNat 32 len) = .ok (mk len) := by
  have hopc := opc.isLt
  have hres : field (cmdPlain opc) 8 24 = 0 := by
    rw [field_eq_div_mod, toNat_cmdPlain]
    omega
  rw [decodeL, hres, toNat_ofNat_of_lt h]
  rfl

theorem decode_encode {i : Instr} (h : i.wellFormed = true) : decode (encode i).1 (encode i).2 = .ok i := by
  cases i with
  | rdStatus | rdConfig | ePermute | eZeroize | sHash | sRatchet | sRelease => rfl
  | sAbsorb | sAbsorbMore | sSqueeze | sSqueezeMore | sSqueezeKey | sEncrypt | sDecrypt =>
    exact decodeL_cmdPlain _ (fits_iff.mp h)
  | eAdd lane off len =>
    simp only [Instr.wellFormed, Bool.and_eq_true, fits_iff] at h
    obtain ⟨⟨hlane, hoff⟩, hlen⟩ := h
    obtain ⟨hl, ho, hres, -⟩ := fields_cmdB 0x11 hlane hoff
    simp only [encode, decode, opcode_cmdB, decodeEAdd, hl, ho, hres, toNat_ofNat_of_lt hlen]
    rfl
  | eExtract lane len =>
    simp only [Instr.wellFormed, Bool.and_eq_true, fits_iff] at h
    obtain ⟨hlane, hlen⟩ := h
    obtain ⟨hl, -, -, hres⟩ := fields_cmdB 0x12 hlane (by decide : 0 < 2 ^ 6)
    simp only [encode, decode, opcode_cmdB, decodeEExtract, hl, hres, toNat_ofNat_of_lt hlen]
    rfl
  | sKeyed klen idlen nlen ctr =>
    simp only [Instr.wellFormed, Bool.and_eq_true, fits_iff] at h
    obtain ⟨⟨⟨hklen, hidlen⟩, hnlen⟩, hctr⟩ := h
    obtain ⟨hk, hid, hn, hctrp, hres⟩ := fields_cmdK 0x21 ctr.isSome hklen hidlen hnlen
    simp only [encode, decode, opcode_cmdK, decodeSKeyed, hk, hid, hn, hctrp, hres, toNat_ofNat_of_lt hctr]
    cases ctr <;> rfl

/-- Settles O1, format by format: the fields of an encoded CMD are the operands. -/
theorem decodeOfEncodeIsTheCommand : Obligations.DecodeOfEncodeIsTheCommand := fun _ => decode_encode

/-- Settles O3: each word is the encoding of its command. -/
theorem writtenWordsDecode : Obligations.WrittenWordsDecode :=
  ⟨decode_encode (i := .rdStatus) rfl, decode_encode (i := .ePermute) rfl, decode_encode (i := .eAdd 1 47 1) rfl,
    decode_encode (i := .eExtract 1 48) rfl, decode_encode (i := .sKeyed 20 10 13 none) rfl,
    decode_encode (i := .sKeyed 3 0 0 (some 2)) rfl, decode_encode (i := .sAbsorb 3) rfl,
    decode_encode (i := .sRelease) rfl⟩

/-! ### From words to a command and back (R51, R61 to R63) -/

theorem eq_cmdPlain {w : Word} {opc : Byte} (hopc : w.extractLsb' 0 8 = opc) (hres : field w 8 24 = 0) :
    w = cmdPlain opc := by
  apply BitVec.eq_of_toNat_eq
  rw [toNat_cmdPlain, toNat_of_opcode hopc]
  rw [field_eq_div_mod] at hres
  omega

theorem eq_cmdB {w : Word} {opc : Byte} (hopc : w.extractLsb' 0 8 = opc) (hres : field w 22 10 = 0) :
    w = cmdB opc (field w 8 8) (field w 16 6) := by
  apply BitVec.eq_of_toNat_eq
  rw [toNat_cmdB opc (field_lt ..) (field_lt ..), toNat_of_opcode hopc]
  simp only [field_eq_div_mod] at hres ⊢
  omega

theorem eq_cmdK {w : Word} {opc : Byte} (hopc : w.extractLsb' 0 8 = opc) (hres : field w 27 5 = 0) :
    w = cmdK opc (field w 8 6) (field w 14 6) (field w 20 6) (field w 26 1 == 1) := by
  apply BitVec.eq_of_toNat_eq
  rw [toNat_cmdK opc _ (field_lt ..) (field_lt ..) (field_lt ..), toNat_of_opcode hopc, toNat_field_one]
  simp only [field_eq_div_mod] at hres ⊢
  omega

theorem unlessReserved_eq_ok {b : Bool} {i j : Instr} : unlessReserved b i = .ok j ↔ b = true ∧ j = i := by
  unfold unlessReserved
  split <;> simp_all [eq_comm]

/-- The words are the command's, and the command has an encoding. -/
abbrev Encodes (i : Instr) (cmd len : Word) : Prop := i.wellFormed = true ∧ encode i = (cmd, len)

section

variable {cmd len : Word} {opc : Byte} {i j : Instr}

theorem encodes_of_decodeN (hopc : cmd.extractLsb' 0 8 = opc) (h : decodeN i cmd len = .ok j)
    (hi : Encodes i (cmdPlain opc) 0) : Encodes j cmd len := by
  obtain ⟨hres, rfl⟩ := unlessReserved_eq_ok.mp h
  simp only [Bool.and_eq_true, beq_iff_eq] at hres
  obtain ⟨hcmd, rfl⟩ := hres
  rwa [eq_cmdPlain hopc hcmd]

theorem encodes_of_decodeL {mk : Nat → Instr} (hopc : cmd.extractLsb' 0 8 = opc) (h : decodeL mk cmd len = .ok j)
    (hmk : ∀ n, (mk n).wellFormed = fits 32 n ∧ encode (mk n) = (cmdPlain opc, BitVec.ofNat 32 n)) :
    Encodes j cmd len := by
  obtain ⟨hres, rfl⟩ := unlessReserved_eq_ok.mp h
  obtain ⟨hwf, henc⟩ := hmk len.toNat
  rw [Encodes, hwf, henc, BitVec.ofNat_toNat, BitVec.setWidth_eq, ← eq_cmdPlain hopc (beq_iff_eq.mp hres)]
  exact ⟨fits_iff.mpr len.isLt, rfl⟩

theorem encodes_of_decodeEAdd (hopc : cmd.extractLsb' 0 8 = 0x11) (h : decodeEAdd cmd len = .ok j) :
    Encodes j cmd len := by
  obtain ⟨hres, rfl⟩ := unlessReserved_eq_ok.mp h
  constructor
  · simp only [Instr.wellFormed, Bool.and_eq_true, fits_iff]
    exact ⟨⟨field_lt .., field_lt ..⟩, len.isLt⟩
  · rw [encode, BitVec.ofNat_toNat, BitVec.setWidth_eq, ← eq_cmdB hopc (beq_iff_eq.mp hres)]

theorem encodes_of_decodeEExtract (hopc : cmd.extractLsb' 0 8 = 0x12) (h : decodeEExtract cmd len = .ok j) :
    Encodes j cmd len := by
  obtain ⟨hres, rfl⟩ := unlessReserved_eq_ok.mp h
  have hzero : field cmd 16 6 = 0 ∧ field cmd 22 10 = 0 := by
    rw [beq_iff_eq, field_eq_div_mod] at hres
    simp only [field_eq_div_mod]
    omega
  obtain ⟨hoff, hhigh⟩ := hzero
  constructor
  · simp only [Instr.wellFormed, Bool.and_eq_true, fits_iff]
    exact ⟨field_lt .., len.isLt⟩
  · rw [encode, BitVec.ofNat_toNat, BitVec.setWidth_eq, ← hoff, ← eq_cmdB hopc hhigh]

theorem encodes_of_decodeSKeyed (hopc : cmd.extractLsb' 0 8 = 0x21) (h : decodeSKeyed cmd len = .ok j) :
    Encodes j cmd len := by
  obtain ⟨hres, rfl⟩ := unlessReserved_eq_ok.mp h
  simp only [Bool.and_eq_true, Bool.or_eq_true, beq_iff_eq] at hres
  obtain ⟨hcmd, hlen⟩ := hres
  constructor
  · simp only [Instr.wellFormed, Bool.and_eq_true, fits_iff]
    refine ⟨⟨⟨field_lt .., field_lt ..⟩, field_lt ..⟩, ?_⟩
    split
    · exact len.isLt
    · decide
  · have hctr : BitVec.ofNat 32 ((if field cmd 26 1 == 1 then some len.toNat else none).getD 0) = len := by
      rcases hlen with hctrp | rfl
      · simp [hctrp]
      · split <;> rfl
    have hsome : (if field cmd 26 1 == 1 then some len.toNat else none).isSome = (field cmd 26 1 == 1) := by
      split <;> simp_all
    rw [encode, hctr, hsome, ← eq_cmdK hopc hcmd]

/-- Every arm of the decoder: formats N, B, K and L, and no command for any other opcode (R57, R62). -/
theorem encodes_of_decode (h : decode cmd len = .ok i) : Encodes i cmd len := by
  unfold decode at h
  split at h
  case h_1 hopc | h_2 hopc | h_3 hopc | h_6 hopc | h_7 hopc | h_14 hopc | h_17 hopc =>
    exact encodes_of_decodeN hopc h ⟨rfl, rfl⟩
  case h_4 hopc => exact encodes_of_decodeEAdd hopc h
  case h_5 hopc => exact encodes_of_decodeEExtract hopc h
  case h_8 hopc => exact encodes_of_decodeSKeyed hopc h
  case h_9 hopc | h_10 hopc | h_11 hopc | h_12 hopc | h_13 hopc | h_15 hopc | h_16 hopc =>
    exact encodes_of_decodeL hopc h fun _ => ⟨rfl, rfl⟩
  case h_18 => cases h

end

/-- Settles O2: the decoder's reserved fields are zero, and its operands are all the other fields. -/
theorem encodeOfDecodeIsTheWords : Obligations.EncodeOfDecodeIsTheWords := fun _ _ _ => encodes_of_decode

/-! ### The opcode table (R57) -/

theorem encode_matches_row : ∀ i : Instr, Laws.TableBits.Statement i
  | .rdStatus => Laws.TableBits.rdStatus
  | .rdConfig => Laws.TableBits.rdConfig
  | .ePermute => Laws.TableBits.ePermute
  | .eAdd .. => Laws.TableBits.eAdd ..
  | .eExtract .. => Laws.TableBits.eExtract ..
  | .eZeroize => Laws.TableBits.eZeroize
  | .sHash => Laws.TableBits.sHash
  | .sKeyed .. => Laws.TableBits.sKeyed ..
  | .sAbsorb _ => Laws.TableBits.sAbsorb _
  | .sAbsorbMore _ => Laws.TableBits.sAbsorbMore _
  | .sSqueeze _ => Laws.TableBits.sSqueeze _
  | .sSqueezeMore _ => Laws.TableBits.sSqueezeMore _
  | .sSqueezeKey _ => Laws.TableBits.sSqueezeKey _
  | .sRatchet => Laws.TableBits.sRatchet
  | .sEncrypt _ => Laws.TableBits.sEncrypt _
  | .sDecrypt _ => Laws.TableBits.sDecrypt _
  | .sRelease => Laws.TableBits.sRelease

theorem row_eq_of_mnemonic {p q : TableRow} (hp : p ∈ opcodeTable) (hq : q ∈ opcodeTable)
    (h : p.mnemonic = q.mnemonic) : p = q :=
  List.inj_on_of_nodup_map (f := TableRow.mnemonic) (by decide) hp hq h

theorem row_eq_of_opcode {p q : TableRow} (hp : p ∈ opcodeTable) (hq : q ∈ opcodeTable)
    (h : p.value.setWidth 8 = q.value.setWidth 8) : p = q :=
  List.inj_on_of_nodup_map (f := fun row : TableRow => row.value.setWidth 8) (by decide) hp hq h

/-- Every row fixes the whole opcode, so a word that matches a row has its opcode. -/
theorem opcode_of_matches {row : TableRow} {w : Word} (hrow : row ∈ opcodeTable) (h : w &&& row.mask = row.value) :
    row.value.setWidth 8 = w.setWidth 8 := by
  have hmask : row.mask.setWidth 8 = BitVec.allOnes 8 :=
    (by decide : ∀ row ∈ opcodeTable, row.mask.setWidth 8 = BitVec.allOnes 8) row hrow
  rw [← h, BitVec.setWidth_and, hmask, BitVec.and_allOnes]

/-- Settles O4: the words are the command's encoding, which matches its own row; a second row that matches has the same
opcode, and rows differ in it. -/
theorem decodedCommandMatchesItsTableRowOnly : Obligations.DecodedCommandMatchesItsTableRowOnly := by
  intro cmd len i h row hrow
  obtain ⟨-, henc⟩ := encodes_of_decode h
  obtain ⟨own, hown, hname, hbits⟩ := encode_matches_row i
  rw [henc] at hbits
  rw [← hname]
  constructor
  · intro hmatch
    rw [row_eq_of_opcode hrow hown ((opcode_of_matches hrow hmatch).trans (opcode_of_matches hown hbits).symm)]
  · intro hsame
    rwa [row_eq_of_mnemonic hrow hown hsame]

/-! ### The byte transport (R66) -/

theorem wordBytes_eq (w : Word) : wordBytes w =
    [w.setWidth 8, (w >>> 8).setWidth 8, (w >>> 16).setWidth 8, (w >>> 24).setWidth 8] := by
  simp only [wordBytes, wordByte_eq_setWidth]
  rfl

theorem decodeBytes_transportBytes {cmd len : Word} {i : Instr} (din : List Byte) (h : decode cmd len = .ok i) :
    decodeBytes (transportBytes cmd len din) = .ok (i, din) := by
  simp only [transportBytes, wordBytes, List.cons_append, List.nil_append, decodeBytes, wordOfBytes_wordByte, h]

/-- Settles O5: the eight bytes before DIN are those of CMD and LEN, the last four of the answer those of RESP. -/
theorem transportReadsBackTheTransaction : Obligations.TransportReadsBackTheTransaction := by
  refine ⟨fun cmd len din i h => ?_, fun s => ⟨?_, readResponse_responseBytes ..⟩⟩
  · have hbytes := decodeBytes_transportBytes din h
    rwa [transportBytes, wordBytes_eq, wordBytes_eq] at hbytes
  · rw [← wordBytes_eq]
    rfl

/-! ### The assembler (R58, R64, R65) -/

theorem length_asm_din (a : Asm) : a.din.length = dinLen a.instr := by
  cases a with
  | sKeyed key id nonce counter => cases counter <;> simp [Asm.din, Asm.instr, dinLen, Nat.add_assoc]
  | _ => rfl

/-- Settles O6: a written command's words are its encoding, and an in-place form has the words and DIN of the plain one. -/
theorem assembledCommandsDecodeWithTheirDin : Obligations.AssembledCommandsDecodeWithTheirDin :=
  ⟨fun a h => ⟨decode_encode h, length_asm_din a⟩, fun _ => ⟨rfl, rfl⟩⟩

end Sys2Proof

namespace Sys2Proof.Machine

/-! ### A step always answers (R50, R67) -/

theorem step_issue {s : State} {tr : Transaction} {rest : List HostAction} (h : s.pending = .issue tr :: rest) :
    step s = transact tr { s with pending := rest } := by
  rw [step, takeAction, h]

theorem transact_of_decode {s : State} {tr : Transaction} {i : Instr} (h : decode tr.cmd tr.len = .ok i) :
    transact tr s = exec i { s with din := tr.din } := by
  rw [transact, h]

/-- Settles O7: the port takes the transaction, and the decoder names the command. -/
theorem stepRunsTheDecodedCommand : Obligations.StepRunsTheDecodedCommand := by
  intro s tr rest i hp hd
  rw [step_issue hp, transact_of_decode hd]

/-- Every command runs in the one frame (R67). -/
theorem exec_eq_runCommand (i : Instr) (s : State) : ∃ f, exec i s = runCommand i f s := by
  cases i <;> exact ⟨_, rfl⟩

theorem exec_next (i : Instr) (s : State) : ∃ t, exec i s = .next t := by
  obtain ⟨f, hf⟩ := exec_eq_runCommand i s
  rw [hf]
  exact runCommand_next i f s

theorem transact_next (tr : Transaction) (s : State) : ∃ t, transact tr s = .next t := by
  unfold transact
  split
  · exact exec_next ..
  · exact ⟨_, rfl⟩

/-- Settles O10: waiting and reset give a next state, and so does every transaction. -/
theorem everyStepAnswers : Obligations.EveryStepAnswers := by
  intro s
  unfold step takeAction
  split
  · exact ⟨_, rfl⟩
  · exact ⟨_, rfl⟩
  · exact transact_next ..

/-! ### RESP (R60) -/

theorem runCommand_settled {i : Instr} {f : State → State × List Byte} {s t : State} (h : runCommand i f s = .next t) :
    t.PortSettled := by
  rcases runCommand_cases h with ⟨rfl, -⟩ | ⟨rfl, -⟩ | ⟨rfl, -⟩ <;> exact ⟨rfl, rfl⟩

theorem exec_settled {i : Instr} {s t : State} (h : exec i s = .next t) : t.PortSettled := by
  obtain ⟨f, hf⟩ := exec_eq_runCommand i s
  exact runCommand_settled (hf.symm.trans h)

theorem rejectCommand_settled (e : Reject) (s : State) :
    (rejectCommand e s).PortSettled ∧ (rejectCommand e s).pending = s.pending := by
  unfold rejectCommand
  split <;> exact ⟨⟨rfl, rfl⟩, rfl⟩

theorem transact_settled {tr : Transaction} {s t : State} (h : transact tr s = .next t) :
    t.PortSettled ∧ t.pending = s.pending := by
  rcases transact_cases h with ⟨i, -, hexec⟩ | ⟨e, -, rfl⟩
  · obtain ⟨-, -, hpending, -⟩ := engineAndSpongeAreSeparate i _ t hexec
    exact ⟨exec_settled hexec, hpending⟩
  · exact rejectCommand_settled e { s with din := tr.din }

/-- FAULT is bit 0 of STATUS, CAUSE bits 7:4 (R17). -/
theorem status_fields (s : State) :
    (status s).getLsbD 0 = s.fault ∧ (status s).toNat / 2 ^ 4 % 2 ^ 4 = s.cause.code := by
  have hsum : (status s).toNat = _ := toNat_statusWord s.fault s.cause s.seq.smode s.seq.sphase
  have hcause := s.cause.code_le
  have hfault := Bool.toNat_le s.fault
  constructor
  · have hlow : (status s).toNat % 2 = s.fault.toNat := by omega
    rw [← BitVec.testBit_toNat, Nat.testBit_zero, hlow]
    cases s.fault <;> rfl
  · omega

/-- Settles O11: every outcome settles the port, so RESP is STATUS, whose fields stand where R17 puts them. -/
theorem responseIsStatusAfterTheTransaction : Obligations.ResponseIsStatusAfterTheTransaction := by
  intro s tr rest hp
  obtain ⟨t, ht⟩ := transact_next tr { s with pending := rest }
  obtain ⟨⟨hdin, hresp⟩, hpending⟩ := transact_settled ht
  obtain ⟨hfault, hcause⟩ := status_fields t
  exact ⟨t, (step_issue hp).trans ht, hresp, hresp ▸ hfault, hresp ▸ hcause, hpending, hdin⟩

/-! ### The length of DOUT (R59) -/

/-- Check 3 of R181: a command passes the checks only with its DIN. -/
theorem length_din_of_check {i : Instr} {s : State} (hc : check i s = .none) : s.din.length = dinLen i := by
  have hcond : (s.din.length != dinLen i) = false :=
    conditions_false_of_firstCause (by simp) hc (s.din.length != dinLen i, .dinLength) (by simp)
  simpa using hcond

theorem flatten_cryptBlocks (x : List Byte) : (cryptBlocks x).flatten = x := by
  have hx := flatten_chunks (r := 24) (by decide) x
  unfold cryptBlocks
  cases hc : chunks x 24 with
  | nil => rwa [hc] at hx
  | cons b bs => rwa [hc] at hx

theorem length_encryptBlock (cu : Byte) (p : List Byte) (q : Sequencer) : (encryptBlock cu p q).2.length = p.length := by
  rw [encryptBlock_state, length_xorSeq, length_up_output, Nat.min_self]

theorem length_decryptBlock (cu : Byte) (c : List Byte) (q : Sequencer) : (decryptBlock cu c q).2.length = c.length := by
  rw [decryptBlock_state, length_xorSeq, length_up_output, Nat.min_self]

theorem length_cryptLoop {block : Byte → List Byte → Sequencer → Sequencer × List Byte}
    (hb : ∀ cu x q, (block cu x q).2.length = x.length) (cu : Byte) (xs : List (List Byte)) (q : Sequencer) :
    (cryptLoop block cu xs q).2.length = xs.flatten.length := by
  induction xs generalizing cu q with
  | nil => rfl
  | cons x xs ih => rw [cryptLoop_cons, List.length_append, hb, ih, List.flatten_cons, List.length_append]

/-- A block loop whose blocks keep the length keeps the message's (R148, R149). -/
theorem length_cryptLoop_cryptBlocks {block : Byte → List Byte → Sequencer → Sequencer × List Byte}
    (hb : ∀ cu x q, (block cu x q).2.length = x.length) (cu : Byte) (x : List Byte) (q : Sequencer) :
    (cryptLoop block cu (cryptBlocks x) q).2.length = x.length := by
  rw [length_cryptLoop hb, flatten_cryptBlocks]

/-- DOUT is empty after a fault, and has `n` bytes otherwise (R59). -/
def AnswersWithLength (n : Nat) (t : State) : Prop :=
  (t.fault = true → t.dout = []) ∧ (t.fault = false → t.dout.length = n)

theorem runCommand_dout {i : Instr} {f : State → State × List Byte} {s : State} (hs : s.fault = false)
    (hf : (f s).1.fault = s.fault) (hout : check i s = .none → (f s).2.length = doutLen i) :
    ∃ t, runCommand i f s = .next t ∧ AnswersWithLength (doutLen i) t := by
  by_cases hc : check i s = .none
  · exact ⟨_, runCommand_passes hs hc, fun h => by simp [hf, hs] at h, fun _ => hout hc⟩
  · exact ⟨_, runCommand_faults hs hc, fun _ => rfl, nofun⟩

theorem exec_dout (i : Instr) {s : State} (hs : s.fault = false) :
    ∃ t, exec i s = .next t ∧ AnswersWithLength (doutLen i) t := by
  unfold exec
  cases i with
  | rdStatus | rdConfig | ePermute | eAdd | eZeroize | sHash | sKeyed | sAbsorb | sAbsorbMore | sRatchet | sRelease =>
    exact runCommand_dout hs rfl fun _ => rfl
  | eExtract => exact runCommand_dout hs rfl fun _ => length_memRead ..
  | sSqueeze | sSqueezeKey =>
    refine runCommand_dout hs rfl fun hc => ?_
    obtain ⟨-, -, -, hlen⟩ := squeezeAny_facts _ _ _ (smode_ne_none_of_check hc rfl)
    exact hlen
  | sSqueezeMore len =>
    refine runCommand_dout hs rfl fun hc => ?_
    obtain ⟨-, -, -, hlen⟩ := squeezeBlocks_facts (chunkSizes len (squeezeRate s.seq.smode)) s.seq
    exact hlen.trans (sum_chunkSizes (squeezeRate_pos (smode_ne_none_of_check hc rfl)) len)
  | sEncrypt =>
    refine runCommand_dout hs rfl fun hc => ?_
    exact (length_cryptLoop_cryptBlocks length_encryptBlock ..).trans (length_din_of_check hc)
  | sDecrypt =>
    refine runCommand_dout hs rfl fun hc => ?_
    exact (length_cryptLoop_cryptBlocks length_decryptBlock ..).trans (length_din_of_check hc)

/-- Settles O12: a command that passes its checks answers with as many bytes as R59 says, and a fault with none. -/
theorem outputHasItsLength : Obligations.OutputHasItsLength := by
  intro i s ⟨hs, _⟩
  obtain ⟨t, ht, hfault, hlen⟩ := exec_dout i hs
  exact ⟨t, ht, hfault, fun h => (hlen h).trans (by cases i <;> rfl)⟩

end Sys2Proof.Machine

/-! PROOFS of the permutation family (spec/40_permutation.md). Theta, Rho and Chi are read off plane by plane
(`Plane.word`). A round is injective because each of its steps is: Chi is undone by its own updates in the opposite
order, and Theta because the parity after it determines the parity before it. Mixing twice doubles both rotations
(`mix_mix`), so five doublings make the mixing 0, and no plane but zero is its own mixing (`eq_zero_of_mixPlane_eq`). -/

namespace Sys2Proof.Machine

/-! ### Words of a plane (R11) -/

/-- Word `x` of a plane (R11), 0 past its four words, as `Lane.word` is past its twelve. -/
def Plane.word (p : Plane) : Nat → Word
  | 0 => p.x0
  | 1 => p.x1
  | 2 => p.x2
  | 3 => p.x3
  | _ => 0

section
variable (s : Lane) (p q : Plane) {x : Nat} (hx : x < 4)
include hx

/-- Plane A is words 0 to 3. -/
theorem word_eq_a : s.word x = s.a.word x := by interval_cases x <;> rfl

/-- Plane B is words 4 to 7. -/
theorem word_eq_b : s.word (4 + x) = s.b.word x := by interval_cases x <;> rfl

/-- Plane C is words 8 to 11. -/
theorem word_eq_c : s.word (8 + x) = s.c.word x := by interval_cases x <;> rfl

theorem word_xor : (p.xor q).word x = p.word x ^^^ q.word x := by interval_cases x <;> rfl

theorem word_notAnd : (p.notAnd q).word x = ~~~p.word x &&& q.word x := by interval_cases x <;> rfl

theorem word_rotl (r : Nat) : (p.rotl r).word x = rotl32 (p.word x) r := by interval_cases x <;> rfl

theorem word_shift1 : p.shift1.word x = p.word ((x + 3) % 4) := by interval_cases x <;> rfl

theorem word_shift2 : p.shift2.word x = p.word ((x + 2) % 4) := by interval_cases x <;> rfl

end

/-! ### The steps, word by word (R83 to R87) -/

theorem word_parity (s : Lane) {x : Nat} (hx : x < 4) :
    (parity s).word x = s.word x ^^^ s.word (4 + x) ^^^ s.word (8 + x) := by
  rw [parity, word_xor _ _ hx, word_xor _ _ hx, word_eq_a s hx, word_eq_b s hx, word_eq_c s hx, BitVec.xor_assoc]

/-- Settles O24: the mixing value is the parity of the column before, rotated by 5 and by 14. -/
theorem thetaMixesTheColumnParity : Obligations.ThetaMixesTheColumnParity := by
  intro s x hx
  have hbefore : (x + 3) % 4 < 4 := Nat.mod_lt _ (by decide)
  have hmix : (mixing s).word x =
      rotl32 ((parity s).word ((x + 3) % 4)) 5 ^^^ rotl32 ((parity s).word ((x + 3) % 4)) 14 := by
    rw [mixing, word_xor _ _ hx, word_rotl _ hx, word_rotl _ hx, word_shift1 _ hx]
  rw [word_parity s hbefore] at hmix
  intro p e
  rw [word_eq_a _ hx, word_eq_a s hx, word_eq_b _ hx, word_eq_b s hx, word_eq_c _ hx, word_eq_c s hx]
  simp only [theta, word_xor _ _ hx, hmix, e, p, and_self]

/-- Settles O25: each step moves or changes whole words of one plane. -/
theorem rhoAndIotaMoveTheirWords : Obligations.RhoAndIotaMoveTheirWords := by
  intro s k x hx
  have h1 : (x + 3) % 4 < 4 := Nat.mod_lt _ (by decide)
  have h2 : (x + 2) % 4 < 4 := Nat.mod_lt _ (by decide)
  refine ⟨⟨?_, ?_, ?_⟩, ⟨?_, ?_, ?_⟩, ?_, ?_, ?_⟩
  · rw [word_eq_a _ hx, word_eq_a _ hx, rhoWest]
  · rw [word_eq_b _ hx, word_eq_b _ h1, rhoWest, word_shift1 _ hx]
  · rw [word_eq_c _ hx, word_eq_c _ hx, rhoWest, word_rotl _ hx]
  · interval_cases x <;> rfl
  · rw [word_eq_b _ hx, word_eq_b _ hx, iota]
  · rw [word_eq_c _ hx, word_eq_c _ hx, iota]
  · rw [word_eq_a _ hx, word_eq_a _ hx, rhoEast]
  · rw [word_eq_b _ hx, word_eq_b _ hx, rhoEast, word_rotl _ hx]
  · rw [word_eq_c _ hx, word_eq_c _ h2, rhoEast, word_rotl _ hx, word_shift2 _ hx]

/-- Where B changes, C is 0 and A has kept its value: the new A acts on B as the old one (R86). -/
theorem notAnd_newA (a b c : Word) : ~~~c &&& (a ^^^ (~~~b &&& c)) = ~~~c &&& a := by
  refine BitVec.eq_of_getLsbD_eq fun i hi => ?_
  simp only [BitVec.getLsbD_and, BitVec.getLsbD_not, BitVec.getLsbD_xor]
  cases c.getLsbD i <;> simp

/-- The new A and the new B act on C as the old ones (R86). -/
theorem notAnd_newA_newB (a b c : Word) : ~~~(a ^^^ (~~~b &&& c)) &&& (b ^^^ (~~~c &&& a)) = ~~~a &&& b := by
  refine BitVec.eq_of_getLsbD_eq fun i hi => ?_
  simp only [BitVec.getLsbD_and, BitVec.getLsbD_not, BitVec.getLsbD_xor, hi, decide_true, Bool.true_and]
  cases a.getLsbD i <;> cases b.getLsbD i <;> simp

/-- Settles O26: the sequential form is the definition; the parallel one follows word by word. -/
theorem chiIsTheParallelChi : Obligations.ChiIsTheParallelChi := by
  intro s x hx
  have ha : (chi s).word x = s.word x ^^^ (~~~s.word (4 + x) &&& s.word (8 + x)) := by
    rw [word_eq_a _ hx, chi, word_xor _ _ hx, word_notAnd _ _ hx, word_eq_a s hx, word_eq_b s hx, word_eq_c s hx]
  have hb : (chi s).word (4 + x) = s.word (4 + x) ^^^ (~~~s.word (8 + x) &&& (chi s).word x) := by
    rw [word_eq_b _ hx, word_eq_a (chi s) hx, chi, word_xor _ _ hx, word_notAnd _ _ hx, word_eq_b s hx, word_eq_c s hx]
  have hc : (chi s).word (8 + x) = s.word (8 + x) ^^^ (~~~(chi s).word x &&& (chi s).word (4 + x)) := by
    rw [word_eq_c _ hx, word_eq_a (chi s) hx, word_eq_b (chi s) hx, chi, word_xor _ _ hx, word_notAnd _ _ hx,
      word_eq_c s hx]
  have hb' := hb
  rw [ha, notAnd_newA] at hb'
  have hc' := hc
  rw [ha, hb', notAnd_newA_newB] at hc'
  exact ⟨hb, hc, ha, hb', hc'⟩

/-! ### Rotations of words (R8) -/

theorem rotl32_zero (v : Word) : rotl32 v 0 = v := by
  refine BitVec.eq_of_getLsbD_eq fun i hi => ?_
  rw [rotationIsTowardTheTopBit _ _ _ (by decide) hi, Nat.add_mod_right, Nat.mod_eq_of_lt hi]

theorem rotl32_xor (v w : Word) {r : Nat} (hr : r < 32) : rotl32 (v ^^^ w) r = rotl32 v r ^^^ rotl32 w r := by
  refine BitVec.eq_of_getLsbD_eq fun i hi => ?_
  simp only [BitVec.getLsbD_xor, rotationIsTowardTheTopBit _ _ _ hr hi]

theorem rotl32_rotl32 (v : Word) {r t : Nat} (hr : r < 32) (ht : t < 32) :
    rotl32 (rotl32 v r) t = rotl32 v ((r + t) % 32) := by
  refine BitVec.eq_of_getLsbD_eq fun i hi => ?_
  rw [rotationIsTowardTheTopBit _ _ _ ht hi, rotationIsTowardTheTopBit _ _ _ hr (Nat.mod_lt _ (by decide)),
    rotationIsTowardTheTopBit _ _ _ (Nat.mod_lt _ (by decide)) hi]
  congr 1
  omega

theorem rotl32_injective {r : Nat} (hr : r < 32) : Function.Injective (rotl32 · r) := by
  refine Function.LeftInverse.injective (g := (rotl32 · ((32 - r) % 32))) fun v => ?_
  have hback : (r + (32 - r) % 32) % 32 = 0 := by omega
  simp only [rotl32_rotl32 v hr (Nat.mod_lt _ (by decide)), hback, rotl32_zero]

/-- Rotating by 8 bits moves each byte one place up, the last one to the front. -/
theorem wordByte_rotl32_eight (w : Word) {i : Nat} (hi : i < 4) :
    wordByte (rotl32 w 8) i = wordByte w ((i + 3) % 4) := by
  refine BitVec.eq_of_getLsbD_eq fun k hk => ?_
  simp only [wordByte, BitVec.getLsbD_extractLsb', hk, decide_true, Bool.true_and]
  rw [rotationIsTowardTheTopBit _ _ _ (by decide) (by omega)]
  congr 1
  omega

/-- Settles O27: byte `4x + i` of C comes from word `x - 2`, byte `i - 1`, which is what T lists. -/
theorem rhoEastIsTheByteTable : Obligations.RhoEastIsTheByteTable := by
  intro s j hj
  have hx : j / 4 < 4 := by omega
  have hi : j % 4 < 4 := Nat.mod_lt _ (by decide)
  have htable : ∀ j < 16, [11, 8, 9, 10, 15, 12, 13, 14, 3, 0, 1, 2, 7, 4, 5, 6].getD j 0 =
      4 * ((j / 4 + 2) % 4) + (j % 4 + 3) % 4 := by decide
  obtain ⟨-, -, -, -, hword⟩ := rhoAndIotaMoveTheirWords s 0 (j / 4) hx
  calc (rhoEast s).byte (32 + j)
    _ = (rhoEast s).byte (4 * (8 + j / 4) + j % 4) := by congr 1; omega
    _ = wordByte (rotl32 (s.word (8 + (j / 4 + 2) % 4)) 8) (j % 4) := by rw [byte_eq_wordByte _ _ hi, hword]
    _ = s.byte (4 * (8 + (j / 4 + 2) % 4) + (j % 4 + 3) % 4) := by
      rw [wordByte_rotl32_eight _ hi, byte_eq_wordByte _ _ (Nat.mod_lt _ (by decide))]
    _ = _ := by rw [htable j hj]; congr 1; omega

/-! ### The mixing has no fixed plane but zero (R83) -/

/-- A word rotated by `r` and by `t`, the two XORed: how Theta mixes a word of the parity (R83). -/
def mix (r t : Nat) (w : Word) : Word := rotl32 w r ^^^ rotl32 w t

theorem mix_xor (v w : Word) {r t : Nat} (hr : r < 32) (ht : t < 32) :
    mix r t (v ^^^ w) = mix r t v ^^^ mix r t w := by
  simp only [mix, rotl32_xor _ _ hr, rotl32_xor _ _ ht]
  ac_rfl

/-- Mixing twice doubles both rotations: the two crossed terms are equal and cancel. -/
theorem mix_mix (w : Word) {r t : Nat} (hr : r < 32) (ht : t < 32) :
    mix r t (mix r t w) = mix ((r + r) % 32) ((t + t) % 32) w := by
  have hcross : rotl32 (rotl32 w t) r = rotl32 (rotl32 w r) t := by
    rw [rotl32_rotl32 w ht hr, rotl32_rotl32 w hr ht, Nat.add_comm]
  simp only [mix]
  rw [rotl32_xor _ _ hr, rotl32_xor _ _ ht, hcross, BitVec.xor_assoc, ← BitVec.xor_assoc (rotl32 (rotl32 w r) t),
    BitVec.xor_self, BitVec.zero_xor, rotl32_rotl32 w hr hr, rotl32_rotl32 w ht ht]

theorem mix_self (r : Nat) (w : Word) : mix r r w = 0 := BitVec.xor_self

/-- The plane Theta adds to each plane when the parity is `p` (R83). -/
def mixPlane (p : Plane) : Plane := (p.shift1.rotl 5).xor (p.shift1.rotl 14)

theorem mixing_eq (s : Lane) : mixing s = mixPlane (parity s) := rfl

theorem mixPlane_eq (p : Plane) : mixPlane p = ⟨mix 5 14 p.x3, mix 5 14 p.x0, mix 5 14 p.x1, mix 5 14 p.x2⟩ := rfl

/-- Going once round the four words mixes by 20 and 24 bits. -/
theorem mix_four (w : Word) : mix 5 14 (mix 5 14 (mix 5 14 (mix 5 14 w))) = mix 20 24 w := by
  rw [mix_mix _ (by decide) (by decide), mix_mix _ (by decide) (by decide), mix_mix _ (by decide) (by decide)]

theorem eq_zero_of_mix_four {w : Word} (h : mix 20 24 w = w) : w = 0 := by
  have h8 : mix 8 16 w = w := by rw [← mix_mix w (r := 20) (t := 24) (by decide) (by decide), h, h]
  have h16 : mix 16 0 w = w := by rw [← mix_mix w (r := 8) (t := 16) (by decide) (by decide), h8, h8]
  have h32 : mix 0 0 w = w := by rw [← mix_mix w (r := 16) (t := 0) (by decide) (by decide), h16, h16]
  rw [← h32, mix_self]

/-- The only plane that is its own mixing is zero: going round its words, each is its own mixing by 20 and 24 bits. -/
theorem eq_zero_of_mixPlane_eq {p : Plane} (h : mixPlane p = p) : p = Plane.zero := by
  obtain ⟨x0, x1, x2, x3⟩ := p
  simp only [mixPlane_eq, Plane.mk.injEq] at h
  obtain ⟨h0, h1, h2, h3⟩ := h
  have hz0 : x0 = 0 := eq_zero_of_mix_four (by rw [← mix_four, h1, h2, h3, h0])
  have hz1 : x1 = 0 := eq_zero_of_mix_four (by rw [← mix_four, h2, h3, h0, h1])
  have hz2 : x2 = 0 := eq_zero_of_mix_four (by rw [← mix_four, h3, h0, h1, h2])
  have hz3 : x3 = 0 := eq_zero_of_mix_four (by rw [← mix_four, h0, h1, h2, h3])
  rw [hz0, hz1, hz2, hz3, Plane.zero]

/-! ### Planes under XOR and rotation -/

theorem Plane.xor_right_injective (q : Plane) : Function.Injective (Plane.xor · q) := by
  rintro ⟨_, _, _, _⟩ ⟨_, _, _, _⟩ h
  simpa [Plane.xor, Plane.zip] using h

theorem Plane.eq_of_xor_eq_zero {p q : Plane} (h : p.xor q = Plane.zero) : p = q := by
  obtain ⟨_, _, _, _⟩ := p
  obtain ⟨_, _, _, _⟩ := q
  simpa [Plane.xor, Plane.zip, Plane.zero] using h

theorem Plane.xor_comm (p q : Plane) : p.xor q = q.xor p := by
  simp only [Plane.xor, Plane.zip, BitVec.xor_comm]

theorem Plane.xor_right_comm (p q e : Plane) : (p.xor q).xor e = (p.xor e).xor q := by
  simp only [Plane.xor, Plane.zip]
  ac_rfl

/-- What is added to both cancels. -/
theorem Plane.xor_xor_xor_cancel_right (p q e : Plane) : (p.xor e).xor (q.xor e) = p.xor q := by
  have hword (v w u : Word) : v ^^^ u ^^^ (w ^^^ u) = v ^^^ w := by
    rw [BitVec.xor_comm w u, BitVec.xor_assoc, ← BitVec.xor_assoc u u, BitVec.xor_self, BitVec.zero_xor]
  simp only [Plane.xor, Plane.zip, hword]

theorem mixPlane_xor (p q : Plane) : mixPlane (p.xor q) = (mixPlane p).xor (mixPlane q) := by
  simp only [mixPlane_eq, Plane.xor, Plane.zip, mix_xor _ _ (show 5 < 32 by decide) (show 14 < 32 by decide)]

theorem Plane.rotl_injective {r : Nat} (hr : r < 32) : Function.Injective (Plane.rotl · r) := by
  rintro ⟨_, _, _, _⟩ ⟨_, _, _, _⟩ h
  simpa [Plane.rotl, Plane.map, (rotl32_injective hr).eq_iff] using h

theorem Plane.shift1_injective : Function.Injective Plane.shift1 := by
  rintro ⟨_, _, _, _⟩ ⟨_, _, _, _⟩ h
  simp only [Plane.shift1, Plane.mk.injEq] at h ⊢
  tauto

theorem Plane.shift2_injective : Function.Injective Plane.shift2 := by
  rintro ⟨_, _, _, _⟩ ⟨_, _, _, _⟩ h
  simp only [Plane.shift2, Plane.mk.injEq] at h ⊢
  tauto

/-! ### Every step is injective -/

/-- The three mixing planes Theta adds are equal, so they add up to one (R83). -/
theorem parity_theta (s : Lane) : parity (theta s) = (parity s).xor (mixPlane (parity s)) := by
  rw [parity, theta, mixing_eq, Plane.xor_xor_xor_cancel_right, Plane.xor_right_comm, ← parity]

/-- The parity after Theta determines the parity before it: two parities with one image differ by their own mixing. -/
theorem xor_mixPlane_injective : Function.Injective fun p : Plane => p.xor (mixPlane p) := by
  intro p q (h : p.xor (mixPlane p) = q.xor (mixPlane q))
  refine Plane.eq_of_xor_eq_zero (eq_zero_of_mixPlane_eq ?_)
  calc mixPlane (p.xor q)
    _ = (mixPlane p).xor (mixPlane q) := mixPlane_xor p q
    _ = ((mixPlane p).xor p).xor ((mixPlane q).xor p) := (Plane.xor_xor_xor_cancel_right ..).symm
    _ = (q.xor (mixPlane q)).xor (p.xor (mixPlane q)) := by
      rw [Plane.xor_comm _ p, h, Plane.xor_comm (mixPlane q) p]
    _ = q.xor p := Plane.xor_xor_xor_cancel_right ..
    _ = p.xor q := Plane.xor_comm q p

theorem theta_injective : Function.Injective theta := by
  intro s t h
  have hparity : parity s = parity t :=
    xor_mixPlane_injective ((parity_theta s).symm.trans ((congrArg parity h).trans (parity_theta t)))
  have hmix : mixing s = mixing t := congrArg mixPlane hparity
  simp only [theta, hmix, Lane.mk.injEq] at h
  obtain ⟨ha, hb, hc⟩ := h
  cases s
  cases t
  exact (Lane.mk.injEq ..).mpr
    ⟨Plane.xor_right_injective _ ha, Plane.xor_right_injective _ hb, Plane.xor_right_injective _ hc⟩

theorem rhoWest_injective : Function.Injective rhoWest := by
  rintro ⟨a, b, c⟩ ⟨a', b', c'⟩ h
  simpa only [rhoWest, Lane.mk.injEq, Plane.shift1_injective.eq_iff,
    (Plane.rotl_injective (show 11 < 32 by decide)).eq_iff] using h

theorem iota_injective (k : Word) : Function.Injective (iota k) := by
  rintro ⟨⟨_, _, _, _⟩, _, _⟩ ⟨⟨_, _, _, _⟩, _, _⟩ h
  simpa [iota] using h

/-- Chi is undone in the opposite order (R86): C from the new A and B, then B from the new A and C, then A. -/
theorem chi_injective : Function.Injective chi := by
  rintro ⟨a, b, c⟩ ⟨a', b', c'⟩ h
  simp only [chi, Lane.mk.injEq] at h
  obtain ⟨ha, hb, hc⟩ := h
  rw [hb, ha] at hc
  obtain rfl := Plane.xor_right_injective _ hc
  rw [ha] at hb
  obtain rfl := Plane.xor_right_injective _ hb
  obtain rfl := Plane.xor_right_injective _ ha
  rfl

theorem rhoEast_injective : Function.Injective rhoEast := by
  rintro ⟨a, b, c⟩ ⟨a', b', c'⟩ h
  simpa only [rhoEast, Lane.mk.injEq, Plane.shift2_injective.eq_iff,
    (Plane.rotl_injective (show 1 < 32 by decide)).eq_iff,
    (Plane.rotl_injective (show 8 < 32 by decide)).eq_iff] using h

theorem xoodooRound_injective (k : Word) : Function.Injective (xoodooRound · k) :=
  rhoEast_injective.comp <| chi_injective.comp <| (iota_injective k).comp <| rhoWest_injective.comp theta_injective

/-! ### The permutation (R80, R81, R88) -/

theorem foldl_xoodooRound_injective (ks : List Word) : Function.Injective (ks.foldl xoodooRound) := by
  induction ks with
  | nil => exact Function.injective_id
  | cons k ks ih => exact ih.comp (xoodooRound_injective k)

/-- There are finitely many 12-word states: twelve words determine one. -/
theorem finite_lane : Finite Lane :=
  have : Finite Word := Finite.of_injective _ BitVec.toFin_injective
  Finite.of_injective (fun s (w : Fin 12) => s.word w) fun _ _ h =>
    Lane.ext_word fun w hw => congrFun h ⟨w, hw⟩

/-- Settles O29: an injection of a finite set into itself is a bijection. -/
theorem xoodooIsABijection : Obligations.XoodooIsABijection := fun r =>
  have := finite_lane
  Finite.injective_iff_bijective.mp (foldl_xoodooRound_injective (schedule r))

/-- The schedule of `r + 1` rounds: its own first constant, then the schedule of `r` rounds (R81). -/
theorem schedule_succ {r : Nat} (hr : r < 12) : schedule (r + 1) = rc (12 - (r + 1)) :: schedule r := by
  rw [schedule, List.range_succ_eq_map, List.map_cons, List.map_map, schedule]
  congr 1
  refine List.map_congr_left fun j _ => congrArg rc ?_
  omega

/-- Settles O28: a permutation is a fold over its schedule. -/
theorem xoodooIsItsRoundsInOrder : Obligations.XoodooIsItsRoundsInOrder := by
  refine ⟨fun _ _ => rfl, fun _ => rfl, fun s r h1 h12 => ?_⟩
  obtain ⟨r, rfl⟩ := Nat.exists_eq_add_of_le' h1
  rw [xoodoo, schedule_succ h12]
  rfl

/-! ### E.PERMUTE (R89, R91) -/

/-- E.PERMUTE without DIN passes every check (R181). -/
theorem check_ePermute {s : State} (hdin : s.din = []) : check .ePermute s = .none := by
  simp [check, firstCause, dinLen, namesLaneFrom, addPastEnd, extractPastEnd, needsSponge, needsKeyed, ivTooLong, hdin]

/-- E.PERMUTE without DIN completes in a block without a fault, with DOUT empty (R91). -/
theorem exec_ePermute {s : State} (hfault : s.fault = false) (hdin : s.din = []) :
    exec .ePermute s = .next (respond [] { s with lanes := s.lanes.map (xoodoo s.rounds) }) :=
  runCommand_passes hfault (check_ePermute hdin)

/-- Lane `l` of the mapped lane file is `f` of lane `l`, whatever the other lanes hold (R89). -/
theorem getD_map_lanes (f : Lane → Lane) {ls : List Lane} {l : Nat} (hl : l < ls.length) :
    (ls.map f).getD l Lane.zero = f (ls.getD l Lane.zero) := by
  simp [hl]

/-- Settles O30: in a ready state RESP shows no fault and no cause. -/
theorem permuteAppliesXoodooToEveryLane : Obligations.PermuteAppliesXoodooToEveryLane := by
  intro s ⟨hfault, hcause⟩ hdin
  refine ⟨_, ?_, List.length_map _, fun l hl => getD_map_lanes _ hl⟩
  rw [exec_ePermute hfault hdin, ← hfault, ← hcause]
  rfl

/-- Settles O31: both blocks run the same permutation, lane by lane. -/
theorem batchedPermuteIsScalarPerLane : Obligations.BatchedPermuteIsScalarPerLane := by
  intro s scalar l ⟨hfault, _⟩ hdin ⟨hfault', _⟩ hdin' hrounds hl hlanes
  refine ⟨_, _, exec_ePermute hfault hdin, exec_ePermute hfault' hdin', getD_map_lanes _ hl, ?_⟩
  rw [State.lane, respond_lanes, respond_lanes, getD_map_lanes _ hl, hlanes, hrounds]
  rfl

end Sys2Proof.Machine

/-! PROOFS of the byte-access family (spec/41_byte_access.md). Each command in range passes its checks
(`check_eq_none`) and completes with its effect written out (`exec_eAdd`, `exec_eExtract`, `exec_eZeroize`); in a ready
state RESP is then the STATUS without a fault (`respond_ready`). What E.ADD does to a byte is what the lane file and
`xorBytes` do to it. -/

namespace Sys2Proof.Machine

/-! ### Completion in a ready state (R60, R181) -/

/-- When no condition of R181 holds, no check fails. -/
theorem check_eq_none {i : Instr} {s : State} (hdin : s.din.length = dinLen i)
    (hlane : namesLaneFrom s.nLanes i = false) (hadd : addPastEnd i = false) (hextract : extractPastEnd i = false)
    (hsponge : needsSponge i = true → s.seq.smode ≠ .none) (hkeyed : needsKeyed i = true → s.seq.smode ≠ .hash)
    (hiv : ivTooLong i = false) : check i s = .none := by
  have hsponge' : (needsSponge i && s.seq.smode == .none) = false := by simpa using hsponge
  have hkeyed' : (needsKeyed i && s.seq.smode == .hash) = false := by simpa using hkeyed
  simp [check, firstCause, hdin, hlane, hadd, hextract, hsponge', hkeyed', hiv]

/-- A response from a ready state shows no fault and no cause (R17, R60). -/
theorem respond_ready {s : State} (h : s.Ready) (out : List Byte) :
    respond out s =
      { s with din := [], dout := out, resp := statusWord false .none s.seq.smode s.seq.sphase } := by
  obtain ⟨hfault, hcause⟩ := h
  rw [respond, status, hfault, hcause]

/-! ### E.ADD (R34, R100) -/

/-- Every lane after a lane write: the written one holds the value, the others are as they were (R10). -/
theorem lane_setLane {s : State} {l : Nat} (hl : l < s.lanes.length) (m : Nat) (v : Lane) :
    (s.setLane m v).lane l = if l = m then v else s.lane l := by
  split
  · next heq => rw [← heq, lane_setLane_self hl]
  · next hne => simp [State.lane, List.getElem?_set_ne (Ne.symm hne)]

/-- Every byte of every lane after bytes are XORed into lane `m` from byte `off` (R34). -/
theorem byte_lane_setLane_xorBytes {s : State} {l k : Nat} (hl : l < s.lanes.length) (hk : k < 48) (m off : Nat)
    (x : List Byte) :
    ((s.setLane m (xorBytes (s.lane m) off x)).lane l).byte k =
      if l = m ∧ off ≤ k ∧ k < off + x.length then (s.lane l).byte k ^^^ x.getD (k - off) 0
      else (s.lane l).byte k := by
  rw [lane_setLane hl]
  by_cases heq : l = m
  · rw [if_pos heq, byte_xorBytes _ _ _ hk, ← heq]
    simp only [true_and]
  · simp only [heq, if_false, false_and]

/-- Settles O32: the lane file is the old one with DIN XORed into one lane, and the block is as ready as before. -/
theorem addXorsItsBytesIntoItsLane : Obligations.AddXorsItsBytesIntoItsLane := by
  intro s lane off len hready hdin hlane hend
  have ⟨hfault, _⟩ := hready
  have hready' : (s.setLane lane (xorBytes (s.lane lane) off s.din)).Ready := hready
  refine ⟨(s.setLane lane (xorBytes (s.lane lane) off s.din)).lanes, ?_, List.length_set, fun l hl k hk => ?_⟩
  · rw [exec_eAdd hfault hdin hlane hend, respond_ready hready']
    rfl
  · rw [← hdin]
    exact byte_lane_setLane_xorBytes hl hk lane off s.din

/-! ### E.EXTRACT (R31, R101) -/

/-- Reading bytes is reading words by the formula of R31. -/
theorem memRead_zero_eq (s : Lane) (n : Nat) :
    memRead s 0 n = (List.range n).map fun k => (s.word (k / 4) >>> (8 * (k % 4))).setWidth 8 := by
  simp only [memRead, Nat.zero_add, Lane.byte, wordByte_eq_setWidth]

/-- An E.EXTRACT in range completes: DOUT is the first bytes of its lane, and no state is written (R101). -/
theorem exec_eExtract {s : State} {lane len : Nat} (hfault : s.fault = false) (hdin : s.din = [])
    (hlane : lane < s.lanes.length) (hlen : len ≤ 48) :
    exec (.eExtract lane len) s = .next (respond (memRead (s.lane lane) 0 len) s) :=
  runCommand_passes hfault <| check_eq_none (congrArg List.length hdin) (decide_eq_false (Nat.not_le.mpr hlane)) rfl
    (decide_eq_false (Nat.not_lt.mpr hlen)) nofun nofun rfl

/-- Settles O34: the bytes read are those of R31's formula. -/
theorem extractReturnsTheFirstBytes : Obligations.ExtractReturnsTheFirstBytes := by
  intro s lane len hready hdin hlane hlen
  have ⟨hfault, _⟩ := hready
  rw [exec_eExtract hfault hdin hlane hlen, respond_ready hready, memRead_zero_eq]

/-! ### E.ZEROIZE (R102) -/

/-- E.ZEROIZE without DIN completes, with DOUT empty (R102). -/
theorem exec_eZeroize {s : State} (hfault : s.fault = false) (hdin : s.din = []) :
    exec .eZeroize s = .next (respond [] { s with lanes := s.lanes.map fun _ => Lane.zero }) :=
  runCommand_passes hfault <| check_eq_none (congrArg List.length hdin) rfl rfl rfl nofun nofun rfl

/-- Settles O35: zero in place of every lane is as many zero lanes. -/
theorem zeroizeClearsEveryLane : Obligations.ZeroizeClearsEveryLane := by
  intro s hready hdin
  have ⟨hfault, _⟩ := hready
  have hready' : State.Ready { s with lanes := List.replicate s.lanes.length Lane.zero } := hready
  rw [exec_eZeroize hfault hdin, List.map_const', respond_ready hready']

end Sys2Proof.Machine

/-! PROOFS of the sponge-primitives family (spec/42_sponge_primitives.md). Bytes XORed in by `Up` and `Down` are XORed
byte by byte (`byte_xorBytes_zero`, `byte_xorBytes_singleton`), a byte outside them with 0. A loop leaves SPHASE to its
last primitive, and has one exactly when its operand has a chunk (`chunks_eq_nil`, `chunkSizes_eq_nil`). -/

namespace Sys2Proof.Machine

/-! ### Bytes XORed into sponge space (R34, R121) -/

/-- Bytes XORed in at offset 0: past the end of `x` nothing is added. -/
theorem byte_xorBytes_zero (s : Lane) (x : List Byte) {k : Nat} (hk : k < 48) :
    (xorBytes s 0 x).byte k = s.byte k ^^^ x.getD k 0 := by
  rw [byte_xorBytes _ _ _ hk, Nat.zero_add, Nat.sub_zero]
  split
  · rfl
  · next hout =>
    rw [List.getD_eq_default _ _ (by omega)]
    exact BitVec.xor_zero.symm

theorem byte_xorBytes_singleton (s : Lane) (m : Nat) (b : Byte) {k : Nat} (hk : k < 48) :
    (xorBytes s m [b]).byte k = s.byte k ^^^ (if k = m then b else 0) := by
  rw [byte_xorBytes _ _ _ hk, List.length_singleton]
  by_cases heq : k = m
  · rw [if_pos (by omega), if_pos heq, heq, Nat.sub_self, List.getD_cons_zero]
  · rw [if_neg (by omega), if_neg heq]
    exact BitVec.xor_zero.symm

/-! ### Up (R122) -/

/-- The bytes of `Up`, whether a count is given or not: NONE reads as many bytes as 0 does. -/
theorem up_output_getD (n : Option Nat) (cu : Byte) (q : Sequencer) :
    (up n cu q).2 = memRead (up n cu q).1.sst 0 (n.getD 0) := by
  cases n <;> rfl

/-- SST as `Up` permutes it: the domain byte is in byte 47 in KEYED mode, and nowhere in another mode. -/
theorem byte_upDomain (cu : Byte) (q : Sequencer) {k : Nat} (hk : k < 48) :
    (if q.smode = .keyed then xorBytes q.sst 47 [cu] else q.sst).byte k =
      q.sst.byte k ^^^ (if k = 47 ∧ q.smode = .keyed then cu else 0) := by
  by_cases hkeyed : q.smode = .keyed
  · rw [if_pos hkeyed, byte_xorBytes_singleton _ _ _ hk]
    simp only [hkeyed, and_true]
  · simp only [hkeyed, if_false, and_false]
    exact BitVec.xor_zero.symm

/-- Settles O36: the state permuted is SST with the domain byte in place. -/
theorem upPermutesThenExtracts : Obligations.UpPermutesThenExtracts := by
  intro n cu q
  refine ⟨_, fun k hk => byte_upDomain cu q hk, Prod.ext (up_state n cu q) ?_⟩
  simp only [up_output_getD, up_state, memRead, Nat.zero_add]

/-! ### Down (R123) -/

/-- A byte of SST after `Down`: the block, the pad byte and the domain byte are each XORed in. -/
theorem byte_down (x : Option (List Byte)) (cd : Byte) (q : Sequencer) {k : Nat} (hk : k < 48) :
    (down x cd q).sst.byte k = q.sst.byte k ^^^ (x.getD []).getD k 0 ^^^
      (if k = (x.getD []).length then 0x01 else 0) ^^^
      (if k = 47 then (if q.smode = .hash then cd &&& 0x01 else cd) else 0) := by
  rw [down_state, byte_xorBytes_singleton _ _ _ hk, byte_xorBytes_singleton _ _ _ hk, byte_xorBytes_zero _ _ hk, padByte]

/-- Settles O37: with a block of at most 44 bytes, no byte of SST takes more than one of block, pad and domain (R124). -/
theorem downXorsBlockPadAndDomain : Obligations.DownXorsBlockPadAndDomain := by
  intro x cd q hlen
  refine ⟨(down x cd q).sst, rfl, fun k hk => ?_⟩
  rw [byte_down x cd q hk]
  rcases Nat.lt_trichotomy k (x.getD []).length with hblock | hpad | hpast
  · have hdomain : k ≠ 47 := by omega
    simp [hblock, hblock.ne, hdomain]
  · have hdomain : k ≠ 47 := by omega
    simp [← hpad, hdomain]
  · simp [hpast.ne', Nat.not_lt.mpr hpast.le]

/-! ### SPHASE after the loops (R126 to R129, R132) -/

theorem chunks_eq_nil {x : List Byte} {r : Nat} (hr : 0 < r) : chunks x r = [] ↔ x = [] := by
  refine ⟨fun h => ?_, fun h => h ▸ chunks_nil hr⟩
  rw [← flatten_chunks hr x, h, List.flatten_nil]

theorem chunkSizes_eq_nil {n r : Nat} (hr : 0 < r) : chunkSizes n r = [] ↔ n = 0 := by
  refine ⟨fun h => ?_, fun h => h ▸ chunkSizes_zero hr⟩
  rw [← sum_chunkSizes hr n, h, List.sum_nil]

theorem absorbAny_sphase (x : List Byte) (r : Nat) (cd : Byte) (q : Sequencer) : (absorbAny x r cd q).sphase = .down := by
  obtain ⟨-, hphase, -⟩ := absorbAny_facts x r cd q
  exact hphase

theorem squeezeBlocks_sphase (zs : List Nat) (q : Sequencer) :
    (squeezeBlocks zs q).1.sphase = if zs = [] then q.sphase else .up := by
  obtain ⟨-, -, hphase, -⟩ := squeezeBlocks_facts zs q
  exact hphase

/-- SPHASE is UP after `SqueezeAny` in NONE too: its first step is an `Up` whatever the rate is. -/
theorem squeezeAny_sphase (n : Nat) (cu : Byte) (q : Sequencer) : (squeezeAny n cu q).1.sphase = .up := by
  rw [squeezeAny_eq, squeezeBlocks_sphase, up_sphase, ite_self]

theorem absorbMoreSeq_sphase (x : List Byte) {r : Nat} (hr : 0 < r) (q : Sequencer) :
    (absorbMoreSeq x r q).sphase = if x = [] then q.sphase else .down := by
  obtain ⟨-, -, hphase⟩ := foldl_absorbStep (chunks x r) q
  simp only [absorbMoreSeq, hphase, chunks_eq_nil hr]

theorem squeezeMoreSeq_sphase (n : Nat) {q : Sequencer} (hmode : q.smode ≠ .none) :
    (squeezeMoreSeq n q).1.sphase = if n = 0 then q.sphase else .up := by
  simp only [squeezeMoreSeq, squeezeBlocks_sphase, chunkSizes_eq_nil (squeezeRate_pos hmode)]

/-- Settles O38, part by part. -/
theorem phaseFollowsThePrimitives : Obligations.PhaseFollowsThePrimitives :=
  ⟨up_sphase, down_sphase, absorbAny_sphase, squeezeAny_sphase, fun x _ q hr => absorbMoreSeq_sphase x hr q,
    fun n _ hmode => squeezeMoreSeq_sphase n hmode⟩

end Sys2Proof.Machine

/-! PROOFS of the sponge-commands family (spec/43_sponge_commands.md). A sponge command fails at most one of the checks on
SMODE when it has its DIN (`check_of_needsSponge`); when it passes, its answer in a ready state is written out once
(`runSponge_completes`, and `exec_sAbsorb` to `exec_sDecrypt`). A message of at most one piece is one `Down`
(`absorbAny_of_length_le`), an output of at most one piece one `Up` (`squeezeAny_of_le`). Splitting at a whole piece
splits the list of pieces (`chunks_append`, `chunkSizes_mul_add`). What each command makes of the sequencer stands in one
function (`sequencerAfter`), from which SPHASE and the count of permutations are read. -/

namespace Sys2Proof.Machine

/-! ### Which check fails (R152, R181) -/

/-- The first failing check is the cause a ready block reports, and a fault is reported just when there is one. -/
theorem runCommand_cause {i : Instr} {f : State → State × List Byte} {s : State} (hs : s.Ready)
    (hf : (f s).1.Ready) : ∃ t, runCommand i f s = .next t ∧ t.cause = check i s ∧
      (t.fault = true ↔ check i s ≠ .none) := by
  obtain ⟨hfault, -⟩ := hs
  obtain ⟨hfault', hcause'⟩ := hf
  by_cases hc : check i s = .none
  · refine ⟨_, runCommand_passes hfault hc, hcause'.trans hc.symm, ?_⟩
    rw [respond_fault, hfault', hc]
    decide
  · exact ⟨_, runCommand_faults hfault hc, rfl, iff_of_true rfl hc⟩

theorem exec_cause (i : Instr) {s : State} (hs : s.Ready) :
    ∃ t, exec i s = .next t ∧ t.cause = check i s ∧ (t.fault = true ↔ check i s ≠ .none) := by
  unfold exec
  cases i <;> exact runCommand_cause hs hs

/-- With its DIN, a command of opcodes 0x22 to 0x29 can fail the checks on SMODE alone (R152). -/
theorem check_of_needsSponge {i : Instr} {s : State} (hi : needsSponge i = true) (hdin : s.din.length = dinLen i) :
    check i s = if s.seq.smode = .none then .spongeUninit
      else if needsKeyed i = true ∧ s.seq.smode = .hash then .keyedOnly else .none := by
  have hother : namesLaneFrom s.nLanes i = false ∧ addPastEnd i = false ∧ extractPastEnd i = false ∧
      ivTooLong i = false := by
    cases i with
    | sAbsorb | sAbsorbMore | sSqueeze | sSqueezeMore | sSqueezeKey | sRatchet | sEncrypt | sDecrypt =>
      exact ⟨rfl, rfl, rfl, rfl⟩
    | _ => nomatch hi
  obtain ⟨hlane, hadd, hextract, hiv⟩ := hother
  simp [check, firstCause, hdin, hlane, hadd, hextract, hiv, hi]

/-- S.KEYED with its DIN and an IV that fits passes the checks in every SMODE (R152). -/
theorem check_sKeyed {s : State} {klen idlen nlen : Nat} {ctr : Option Nat}
    (hdin : s.din.length = klen + idlen + nlen + ctr.getD 0) (hiv : klen + idlen + nlen ≤ 43) :
    check (.sKeyed klen idlen nlen ctr) s = .none :=
  check_eq_none hdin rfl rfl rfl nofun nofun (decide_eq_false (by omega))

/-- Settles O17: the checks on the operands pass, and the check that fails, if any, is on SMODE. -/
theorem legalityByMode : Obligations.LegalityByMode := by
  intro s i hs hdin
  obtain ⟨t, ht, hcause, hfault⟩ := exec_cause i hs
  refine ⟨fun hi => ⟨t, ht, ?_⟩, fun len hi => ⟨t, ht, hcause.trans ?_⟩, fun len hi => ⟨t, ht, hcause.trans ?_⟩⟩
  · have hc : check i s = .none := by
      rcases hi with hi | ⟨k, d, n, c, rfl, hiv⟩
      · rcases List.mem_pair.mp hi with rfl | rfl <;> exact check_eq_none hdin rfl rfl rfl nofun nofun rfl
      · exact check_sKeyed hdin hiv
    simpa [hc] using hfault
  · have hneeds : needsSponge i = true ∧ needsKeyed i = false := by
      simp only [List.mem_cons, List.not_mem_nil, or_false] at hi
      rcases hi with rfl | rfl | rfl | rfl <;> exact ⟨rfl, rfl⟩
    obtain ⟨hsponge, hkeyed⟩ := hneeds
    simp [check_of_needsSponge hsponge hdin, hkeyed]
  · have hneeds : needsSponge i = true ∧ needsKeyed i = true := by
      simp only [List.mem_cons, List.not_mem_nil, or_false] at hi
      rcases hi with rfl | rfl | rfl | rfl <;> exact ⟨rfl, rfl⟩
    obtain ⟨hsponge, hkeyed⟩ := hneeds
    rw [check_of_needsSponge hsponge hdin]
    cases s.seq.smode <;> simp [hkeyed]

/-! ### Completion in a ready state (R60, R67) -/

/-- A sponge command that passes its checks in a ready state answers with its effect's output, and its sequencer is the
only storage written (R12). -/
theorem runSponge_completes {i : Instr} {f : List Byte → Sequencer → Sequencer × List Byte} {s : State} {q : Sequencer}
    {out : List Byte} {m : SMode} {p : SPhase} (hs : s.Ready) (hc : check i s = .none)
    (heffect : f s.din s.seq = (q, out)) (hmode : q.smode = m) (hphase : q.sphase = p) :
    runSponge i f s = .next { s with
      seq := q, din := [], dout := out, resp := statusWord false .none m p } := by
  have hs' : State.Ready { s with seq := q } := hs
  obtain ⟨hfault, -⟩ := hs
  rw [runSponge_passes hfault hc, heffect, respond_ready hs', hmode, hphase]

/-! ### S.HASH and S.RELEASE (R140, R150) -/

/-- Settles O39: S.HASH has no check to fail but its DIN. -/
theorem hashConstructsAnEmptySponge : Obligations.HashConstructsAnEmptySponge := by
  intro s hs hdin
  have hc : check .sHash s = .none := check_eq_none (congrArg List.length hdin) rfl rfl rfl nofun nofun rfl
  unfold exec
  exact runSponge_completes (m := .hash) (p := .up) hs hc rfl rfl rfl

/-- Settles O40: S.RELEASE has no check to fail but its DIN. -/
theorem releaseDestroysTheSponge : Obligations.ReleaseDestroysTheSponge := by
  intro s hs hdin
  have hc : check .sRelease s = .none := check_eq_none (congrArg List.length hdin) rfl rfl rfl nofun nofun rfl
  unfold exec
  exact runSponge_completes (m := .none) (p := .up) hs hc rfl rfl rfl

/-! ### At most one piece (R9, R126) -/

theorem chunks_of_length_le {x : List Byte} {r : Nat} (hr : 0 < r) (hx : x ≠ []) (hlen : x.length ≤ r) :
    chunks x r = [x] := by
  rw [chunks_cons hr hx, List.take_of_length_le hlen, List.drop_of_length_le hlen, chunks_nil hr]

/-- A message of at most one piece, the empty one included, is absorbed by one `Down` (R126). -/
theorem absorbAny_of_length_le {x : List Byte} {r : Nat} (hr : 0 < r) (hlen : x.length ≤ r) (cd : Byte) (q : Sequencer) :
    absorbAny x r cd q = down (some x) cd (forceUp q) := by
  rcases eq_or_ne x [] with rfl | hx
  · rw [absorbAny, chunks_nil hr]
    rfl
  · rw [absorbAny, chunks_of_length_le hr hx hlen]
    rfl

theorem forceUp_of_up {q : Sequencer} (h : q.sphase = .up) : forceUp q = q := if_pos h

theorem forceUp_of_down {q : Sequencer} (h : q.sphase = .down) : forceUp q = (up none 0x00 q).1 :=
  if_neg (by rw [h]; decide)

/-- A byte of SST after a `Down` of at most 44 bytes: each takes one of block, pad and domain (R123, R124). -/
theorem byte_down_of_length_le {x : List Byte} (hlen : x.length ≤ 44) (cd : Byte) (q : Sequencer) {k : Nat}
    (hk : k < 48) : (down (some x) cd q).sst.byte k = q.sst.byte k ^^^
      (if k < x.length then x.getD k 0 else if k = x.length then 0x01
       else if k = 47 then (if q.smode = .hash then cd &&& 0x01 else cd) else 0) := by
  obtain ⟨v, hdown, hbyte⟩ := downXorsBlockPadAndDomain (some x) cd q hlen
  rw [hdown]
  exact hbyte k hk

/-! ### S.KEYED (R141) -/

theorem zero_byte (k : Nat) : Lane.zero.byte k = 0 := by
  rw [Lane.byte, zero_word]
  exact BitVec.extractLsb'_zero

/-- The IV is the start of DIN and one length byte (R141). -/
theorem ivOf_eq (klen idlen nlen : Nat) (din : List Byte) :
    ivOf klen idlen nlen din = din.take (klen + idlen + nlen) ++ [BitVec.ofNat 8 (idlen + nlen)] := by
  rw [ivOf, keyOf, keyIdOf, nonceOf, List.take_add, List.take_add]

/-- An IV that fits is absorbed by one `Down` into the zero state (R141). -/
theorem startKeyed_none_eq {klen idlen nlen : Nat} (hiv : klen + idlen + nlen ≤ 43) (din : List Byte) (q : Sequencer) :
    startKeyed klen idlen nlen none din q =
      down (some (ivOf klen idlen nlen din)) dKey (startSponge .keyed q) := by
  have hlen : (ivOf klen idlen nlen din).length ≤ 44 := by
    rw [ivOf_eq, List.length_append, List.length_take, List.length_singleton]
    omega
  exact absorbAny_of_length_le (by decide) hlen _ _

theorem startKeyed_sphase (klen idlen nlen : Nat) (ctr : Option Nat) (din : List Byte) (q : Sequencer) :
    (startKeyed klen idlen nlen ctr din q).sphase = .down := by
  cases ctr <;> exact absorbAny_sphase ..

/-- S.KEYED whose IV fits completes in every SMODE (R141). -/
theorem exec_sKeyed {s : State} {klen idlen nlen : Nat} {ctr : Option Nat} (hs : s.Ready)
    (hdin : s.din.length = klen + idlen + nlen + ctr.getD 0) (hiv : klen + idlen + nlen ≤ 43) :
    exec (.sKeyed klen idlen nlen ctr) s = .next { s with
      seq := startKeyed klen idlen nlen ctr s.din s.seq, din := [], dout := []
      resp := statusWord false .none .keyed .down } := by
  unfold exec
  exact runSponge_completes hs (check_sKeyed hdin hiv) rfl (startKeyed_frame ..).smode (startKeyed_sphase ..)

/-- Settles O41: the IV is DIN and the length byte, XORed into zeros by one `Down`. -/
theorem keyedAbsorbsItsIv : Obligations.KeyedAbsorbsItsIv := by
  intro s klen idlen nlen hs hdin hiv
  have hivOf : ivOf klen idlen nlen s.din = s.din ++ [BitVec.ofNat 8 (idlen + nlen)] := by
    rw [ivOf_eq, ← hdin, List.take_length]
  refine ⟨(startKeyed klen idlen nlen none s.din s.seq).sst, ?_, fun k hk => ?_⟩
  · rw [exec_sKeyed hs hdin hiv, startKeyed_none_eq hiv]
    rfl
  · have hlen : (s.din ++ [BitVec.ofNat 8 (idlen + nlen)]).length = s.din.length + 1 := List.length_append
    rw [startKeyed_none_eq hiv, hivOf, byte_down_of_length_le (by omega) _ _ hk, hlen, startSponge_sst, zero_byte]
    rcases Nat.lt_trichotomy k s.din.length with hmsg | heq | hpast
    · simp [hmsg, hmsg.trans (Nat.lt_succ_self _)]
    · simp [heq]
    · simp [Nat.not_lt.mpr hpast.le, Nat.not_lt.mpr (Nat.succ_le_of_lt hpast), hpast.ne', dKey]

/-! ### The counter of S.KEYED (R126, R141) -/

theorem pieces_one (n : Nat) : pieces n 1 = n := by rw [pieces, Nat.add_sub_cancel, Nat.div_one]

/-- With a counter, S.KEYED is S.KEYED without one and then the counter absorbed at rate 1 (R141). -/
theorem startKeyed_some_eq (klen idlen nlen len : Nat) (din : List Byte) (q : Sequencer) :
    startKeyed klen idlen nlen (some len) din q =
      absorbAny (counterOf klen idlen nlen din) 1 dZero (startKeyed klen idlen nlen none din q) := rfl

/-- S.KEYED without a counter does not look past its IV (R141). -/
theorem startKeyed_none_take (klen idlen nlen : Nat) (din : List Byte) (q : Sequencer) :
    startKeyed klen idlen nlen none (din.take (klen + idlen + nlen)) q = startKeyed klen idlen nlen none din q := by
  have hiv : ivOf klen idlen nlen (din.take (klen + idlen + nlen)) = ivOf klen idlen nlen din := by
    rw [ivOf_eq, ivOf_eq, List.take_take, Nat.min_self]
  exact congrArg (fun iv => absorbAny iv 44 dKey (startSponge .keyed q)) hiv

/-- The permutations of S.KEYED (R155): none for the IV, and for a counter one per byte but at least one. -/
theorem startKeyed_none_perms {klen idlen nlen : Nat} (hiv : klen + idlen + nlen ≤ 43) (din : List Byte)
    (q : Sequencer) : (startKeyed klen idlen nlen none din q).perms = q.perms := by
  rw [startKeyed_none_eq hiv, down_perms, startSponge_perms]

theorem startKeyed_some_perms {klen idlen nlen len : Nat} {din : List Byte}
    (hdin : din.length = klen + idlen + nlen + len) (hiv : klen + idlen + nlen ≤ 43) (q : Sequencer) :
    (startKeyed klen idlen nlen (some len) din q).perms = q.perms + max 1 len := by
  have hlen : (counterOf klen idlen nlen din).length = len := by rw [counterOf, List.length_drop]; omega
  obtain ⟨-, -, hperms⟩ :=
    absorbAny_facts (counterOf klen idlen nlen din) 1 dZero (startKeyed klen idlen nlen none din q)
  rw [startKeyed_some_eq, hperms, startKeyed_sphase, if_pos rfl, startKeyed_none_perms hiv, pieces_one, hlen]
  omega

/-- Settles O42: the IV leaves SPHASE DOWN, so the counter begins with the forced up. -/
theorem keyedAbsorbsItsCounterAtRateOne : Obligations.KeyedAbsorbsItsCounterAtRateOne := by
  intro s klen idlen nlen len hs hdin hiv
  have hdin' : (s.din.take (klen + idlen + nlen)).length = klen + idlen + nlen + Option.getD none 0 := by
    rw [List.length_take, hdin]
    exact Nat.min_eq_left (Nat.le_add_right ..)
  refine ⟨_, startKeyed klen idlen nlen (some len) s.din s.seq,
    exec_sKeyed (s := { s with din := s.din.take (klen + idlen + nlen) }) hs hdin' hiv,
    exec_sKeyed (ctr := some len) hs hdin hiv, ?_, startKeyed_some_perms hdin hiv s.seq⟩
  rw [startKeyed_none_take, startKeyed_some_eq, absorbAny_eq, forceUp_of_down (startKeyed_sphase ..)]
  rfl

/-! ### S.ABSORB and S.ABSORB_MORE (R142, R143) -/

theorem absorbRate_eq {m : SMode} (hm : m ≠ .none) : absorbRate m = if m = .hash then 16 else 44 := by
  cases m with
  | none => exact absurd rfl hm
  | hash | keyed => rfl

theorem absorbRate_le (m : SMode) : absorbRate m ≤ 44 := by cases m <;> decide

/-- The forced up, from the side of SPHASE DOWN (R126). -/
theorem forceUp_eq (q : Sequencer) : forceUp q = if q.sphase = .down then (up none 0x00 q).1 else q := by
  cases h : q.sphase with
  | up => exact forceUp_of_up h
  | down => exact forceUp_of_down h

/-- With its DIN and a sponge its mode allows, a command of opcodes 0x22 to 0x29 passes the checks (R181). -/
theorem check_eq_none_of_smode {i : Instr} {s : State} (hi : needsSponge i = true) (hm : s.seq.smode ≠ .none)
    (hk : needsKeyed i = true → s.seq.smode = .keyed) (hdin : s.din.length = dinLen i) : check i s = .none := by
  rw [check_of_needsSponge hi hdin, if_neg hm]
  refine if_neg fun ⟨hkeyed, hhash⟩ => ?_
  rw [hk hkeyed] at hhash
  cases hhash

/-- S.ABSORB with its DIN completes when a sponge is constructed (R142). -/
theorem exec_sAbsorb {s : State} {len : Nat} (hs : s.Ready) (hm : s.seq.smode ≠ .none) (hdin : s.din.length = len) :
    exec (.sAbsorb len) s = .next { s with
      seq := absorbAny s.din (absorbRate s.seq.smode) dAbsorb s.seq, din := [], dout := []
      resp := statusWord false .none s.seq.smode .down } := by
  have hc := check_eq_none_of_smode (i := .sAbsorb len) rfl hm nofun hdin
  unfold exec
  exact runSponge_completes hs hc rfl (absorbAny_facts ..).1.smode (absorbAny_sphase ..)

/-- S.ABSORB_MORE with its DIN completes when a sponge is constructed (R143). -/
theorem exec_sAbsorbMore {s : State} {len : Nat} (hs : s.Ready) (hm : s.seq.smode ≠ .none) (hdin : s.din.length = len) :
    exec (.sAbsorbMore len) s = .next { s with
      seq := absorbMoreSeq s.din (absorbRate s.seq.smode) s.seq, din := [], dout := []
      resp := statusWord false .none s.seq.smode (if len = 0 then s.seq.sphase else .down) } := by
  have hc := check_eq_none_of_smode (i := .sAbsorbMore len) rfl hm nofun hdin
  have hphase : (absorbMoreSeq s.din (absorbRate s.seq.smode) s.seq).sphase =
      if len = 0 then s.seq.sphase else .down := by
    simp only [absorbMoreSeq_sphase _ (absorbRate_pos hm), ← hdin, List.length_eq_zero_iff]
  unfold exec
  exact runSponge_completes hs hc rfl (foldl_absorbStep ..).1.smode hphase

/-- Settles O43: `AbsorbAny` at the mode's rate, which is one `Down` for a message of at most one piece. -/
theorem absorbAbsorbsTheMessage : Obligations.AbsorbAbsorbsTheMessage := by
  intro s len hs hm hdin
  have hrate := absorbRate_eq hm
  refine ⟨absorbAny s.din (absorbRate s.seq.smode) dAbsorb s.seq, exec_sAbsorb hs hm hdin,
    (absorbAny_facts ..).1.smode, ?_⟩
  dsimp only
  rw [← forceUp_eq, ← hrate]
  refine ⟨absorbAny_eq .., fun hlen => ?_⟩
  rw [absorbAny_of_length_le (absorbRate_pos hm) (hdin ▸ hlen)]
  refine ⟨rfl, fun k hk => ?_⟩
  have hlen44 : s.din.length ≤ 44 := hdin ▸ hlen.trans (absorbRate_le _)
  rw [byte_down_of_length_le hlen44 _ _ hk, (forceUp_frame s.seq).smode, hdin]
  rfl

/-- Settles O44: `AbsorbMoreSeq` at the mode's rate, which has no piece for an empty message. -/
theorem absorbMoreContinues : Obligations.AbsorbMoreContinues := by
  intro s len hs hm hdin
  refine ⟨absorbMoreSeq s.din (absorbRate s.seq.smode) s.seq, exec_sAbsorbMore hs hm hdin, ?_, fun hzero => ?_⟩
  · rw [← absorbRate_eq hm]
    rfl
  · rw [List.length_eq_zero_iff.mp (hdin.trans hzero), absorbMoreSeq, chunks_nil (absorbRate_pos hm)]
    rfl

/-! ### Absorbing in parts (R153) -/

/-- A sequence cut after whole pieces has the pieces of its parts (R9). -/
theorem chunks_append {r m : Nat} (hr : 0 < r) {x : List Byte} (hx : x.length = m * r) (y : List Byte) :
    chunks (x ++ y) r = chunks x r ++ chunks y r := by
  induction m generalizing x with
  | zero =>
    rw [Nat.zero_mul, List.length_eq_zero_iff] at hx
    rw [hx, chunks_nil hr]
    rfl
  | succ m ih =>
    rw [Nat.succ_mul] at hx
    have hle : r ≤ x.length := by omega
    have hne : x ≠ [] := List.ne_nil_of_length_pos (by omega)
    have hdrop : (x.drop r).length = m * r := by rw [List.length_drop]; omega
    rw [chunks_cons hr (List.append_ne_nil_of_left_ne_nil hne y), chunks_cons hr hne, List.take_append_of_le_length hle,
      List.drop_append_of_le_length hle, ih hdrop, List.cons_append]

theorem absorbMoreSeq_append {r m : Nat} (hr : 0 < r) {x : List Byte} (hx : x.length = m * r) (y : List Byte)
    (q : Sequencer) : absorbMoreSeq (x ++ y) r q = absorbMoreSeq y r (absorbMoreSeq x r q) := by
  rw [absorbMoreSeq, chunks_append hr hx, List.foldl_append]
  rfl

/-- After a first part of whole pieces, at least one, the rest goes in as a continuation (R126, R128). -/
theorem absorbAny_append {r m : Nat} (hr : 0 < r) (hm : 0 < m) {x : List Byte} (hx : x.length = m * r) (y : List Byte)
    (cd : Byte) (q : Sequencer) : absorbAny (x ++ y) r cd q = absorbMoreSeq y r (absorbAny x r cd q) := by
  have hne : x ≠ [] := List.ne_nil_of_length_pos (hx ▸ Nat.mul_pos hm hr)
  rw [absorbAny_eq, absorbAny_eq, chunks_append hr hx, chunks_cons hr hne]
  exact List.foldl_append

/-- Settles O52: both splits stand at the end of a piece. -/
theorem absorbChunkingInvariance : Obligations.AbsorbChunkingInvariance := by
  intro s x y m hs hm hx
  rw [← absorbRate_eq hm] at hx
  have hr := absorbRate_pos hm
  have hmode : (absorbAny x (absorbRate s.seq.smode) dAbsorb s.seq).smode = s.seq.smode :=
    (absorbAny_facts ..).1.smode
  have hmode' : (absorbMoreSeq x (absorbRate s.seq.smode) s.seq).smode = s.seq.smode :=
    (foldl_absorbStep ..).1.smode
  refine ⟨fun hpos => ⟨_, _, _, exec_sAbsorb (s := { s with din := x }) hs hm rfl,
      exec_sAbsorbMore hs (ne_of_eq_of_ne hmode hm) rfl, exec_sAbsorb (s := { s with din := x ++ y }) hs hm rfl, ?_⟩,
    _, _, _, exec_sAbsorbMore (s := { s with din := x }) hs hm rfl,
      exec_sAbsorbMore hs (ne_of_eq_of_ne hmode' hm) rfl, exec_sAbsorbMore (s := { s with din := x ++ y }) hs hm rfl,
      ?_⟩
  · simp only [hmode]
    exact absorbAny_append hr hpos hx y dAbsorb s.seq
  · simp only [hmode']
    exact absorbMoreSeq_append hr hx y s.seq

/-! ### S.SQUEEZE, S.SQUEEZE_KEY and S.SQUEEZE_MORE (R144 to R146) -/

theorem squeezeRate_eq {m : SMode} (hm : m ≠ .none) : squeezeRate m = if m = .hash then 16 else 24 := by
  cases m with
  | none => exact absurd rfl hm
  | hash | keyed => rfl

theorem chunkSizes_of_le {n r : Nat} (hn : 0 < n) (hle : n ≤ r) : chunkSizes n r = [n] := by
  have hr := hn.trans_le hle
  rw [chunkSizes_pos hr hn, Nat.min_eq_right hle, Nat.sub_eq_zero_of_le hle, chunkSizes_zero hr]

/-- An output of at most one piece, the empty one included, is squeezed by one `Up` (R127). -/
theorem squeezeAny_of_le {n : Nat} {q : Sequencer} (hm : q.smode ≠ .none) (hle : n ≤ squeezeRate q.smode) (cu : Byte) :
    squeezeAny n cu q = up (some n) cu q := by
  rcases Nat.eq_zero_or_pos n with rfl | hn
  · rw [squeezeAny, chunkSizes_zero (squeezeRate_pos hm)]
    rfl
  · rw [squeezeAny_eq, chunkSizes_of_le hn hle]
    exact Prod.ext rfl (List.append_nil _)

/-- `SqueezeAny` as a first `Up` and a fold over the later sizes (R127). -/
theorem squeezeAny_eq_foldl (n : Nat) (cu : Byte) (q : Sequencer) :
    squeezeAny n cu q = (chunkSizes n (squeezeRate q.smode)).tail.foldl
      (fun a z => ((up (some z) 0x00 (down none 0x00 a.1)).1, a.2 ++ (up (some z) 0x00 (down none 0x00 a.1)).2))
      (up (chunkSizes n (squeezeRate q.smode)).head? cu q) := by
  rw [squeezeAny_eq, ← Prod.mk.eta (p := up _ cu q), foldl_squeeze]

/-- `SqueezeMoreSeq` as a fold over its sizes (R129). -/
theorem squeezeMoreSeq_eq_foldl (n : Nat) (q : Sequencer) :
    squeezeMoreSeq n q = (chunkSizes n (squeezeRate q.smode)).foldl
      (fun a z => ((up (some z) 0x00 (down none 0x00 a.1)).1, a.2 ++ (up (some z) 0x00 (down none 0x00 a.1)).2))
      (q, []) := by
  rw [squeezeMoreSeq, foldl_squeeze]
  rfl

theorem length_squeezeMoreSeq (n : Nat) {q : Sequencer} (hm : q.smode ≠ .none) : (squeezeMoreSeq n q).2.length = n := by
  obtain ⟨-, -, -, hlen⟩ := squeezeBlocks_facts (chunkSizes n (squeezeRate q.smode)) q
  exact hlen.trans (sum_chunkSizes (squeezeRate_pos hm) n)

/-- S.SQUEEZE without DIN completes when a sponge is constructed (R144). -/
theorem exec_sSqueeze {s : State} {len : Nat} (hs : s.Ready) (hm : s.seq.smode ≠ .none) (hdin : s.din = []) :
    exec (.sSqueeze len) s = .next { s with
      seq := (squeezeAny len dSqueeze s.seq).1, din := [], dout := (squeezeAny len dSqueeze s.seq).2
      resp := statusWord false .none s.seq.smode .up } := by
  have hc := check_eq_none_of_smode (i := .sSqueeze len) rfl hm nofun (congrArg List.length hdin)
  unfold exec
  exact runSponge_completes hs hc rfl (squeezeAny_frame ..).smode (squeezeAny_sphase ..)

/-- S.SQUEEZE_KEY without DIN completes in KEYED (R146). -/
theorem exec_sSqueezeKey {s : State} {len : Nat} (hs : s.Ready) (hm : s.seq.smode = .keyed) (hdin : s.din = []) :
    exec (.sSqueezeKey len) s = .next { s with
      seq := (squeezeAny len dSqueezeKey s.seq).1, din := [], dout := (squeezeAny len dSqueezeKey s.seq).2
      resp := statusWord false .none .keyed .up } := by
  have hc := check_eq_none_of_smode (i := .sSqueezeKey len) rfl (by simp [hm]) (fun _ => hm) (congrArg List.length hdin)
  unfold exec
  exact runSponge_completes hs hc rfl ((squeezeAny_frame ..).smode.trans hm) (squeezeAny_sphase ..)

/-- S.SQUEEZE_MORE without DIN completes when a sponge is constructed (R145). -/
theorem exec_sSqueezeMore {s : State} {len : Nat} (hs : s.Ready) (hm : s.seq.smode ≠ .none) (hdin : s.din = []) :
    exec (.sSqueezeMore len) s = .next { s with
      seq := (squeezeMoreSeq len s.seq).1, din := [], dout := (squeezeMoreSeq len s.seq).2
      resp := statusWord false .none s.seq.smode (if len = 0 then s.seq.sphase else .up) } := by
  have hc := check_eq_none_of_smode (i := .sSqueezeMore len) rfl hm nofun (congrArg List.length hdin)
  unfold exec
  exact runSponge_completes hs hc rfl (squeezeBlocks_facts ..).1.smode (squeezeMoreSeq_sphase len hm)

/-- Settles O45: `SqueezeAny` at the mode's rate, with domain D_SQUEEZE. -/
theorem squeezeReturnsItsBytes : Obligations.SqueezeReturnsItsBytes := by
  intro s len hs hm hdin
  obtain ⟨-, -, -, hlen⟩ := squeezeAny_facts len dSqueeze s.seq hm
  rw [← squeezeRate_eq hm]
  exact ⟨_, _, exec_sSqueeze hs hm hdin, hlen, squeezeAny_eq_foldl .., fun hle => squeezeAny_of_le hm hle _⟩

/-- Settles O47: `SqueezeAny` at KEYED's rate, with domain D_SQUEEZE_KEY. -/
theorem squeezeKeyReturnsItsBytes : Obligations.SqueezeKeyReturnsItsBytes := by
  intro s len hs hm hdin
  have hm' : s.seq.smode ≠ .none := by simp [hm]
  obtain ⟨-, -, -, hlen⟩ := squeezeAny_facts len dSqueezeKey s.seq hm'
  have hfold := squeezeAny_eq_foldl len dSqueezeKey s.seq
  have hone := squeezeAny_of_le (n := len) hm'
  rw [hm] at hfold hone
  exact ⟨_, _, exec_sSqueezeKey hs hm hdin, hlen, hfold, fun hle => hone hle _⟩

/-- Settles O46: `SqueezeMoreSeq` at the mode's rate, which has no piece for length 0. -/
theorem squeezeMoreContinues : Obligations.SqueezeMoreContinues := by
  intro s len hs hm hdin
  rw [← squeezeRate_eq hm]
  refine ⟨_, _, exec_sSqueezeMore hs hm hdin, length_squeezeMoreSeq len hm, squeezeMoreSeq_eq_foldl ..,
    fun hzero => ?_, fun hpos hle => ?_⟩
  · rw [hzero, squeezeMoreSeq, chunkSizes_zero (squeezeRate_pos hm)]
    rfl
  · rw [squeezeMoreSeq, chunkSizes_of_le hpos hle]
    exact Prod.ext rfl (List.append_nil _)

/-! ### Squeezing in parts (R154) -/

/-- A length cut after whole pieces has the pieces of its parts (R127, R129). -/
theorem chunkSizes_mul_add {r : Nat} (hr : 0 < r) (m n : Nat) :
    chunkSizes (m * r + n) r = chunkSizes (m * r) r ++ chunkSizes n r := by
  induction m with
  | zero =>
    rw [Nat.zero_mul, chunkSizes_zero hr, Nat.zero_add]
    rfl
  | succ m ih =>
    rw [Nat.succ_mul, chunkSizes_pos hr (by omega), chunkSizes_pos hr (by omega : 0 < m * r + r),
      Nat.min_eq_left (by omega), Nat.min_eq_left (by omega), Nat.add_sub_cancel,
      show m * r + r + n - r = m * r + n by omega, ih, List.cons_append]

theorem squeezeBlocks_append (zs ws : List Nat) (q : Sequencer) :
    squeezeBlocks (zs ++ ws) q =
      ((squeezeBlocks ws (squeezeBlocks zs q).1).1,
        (squeezeBlocks zs q).2 ++ (squeezeBlocks ws (squeezeBlocks zs q).1).2) := by
  induction zs generalizing q with
  | nil => rfl
  | cons z zs ih => simp only [List.cons_append, squeezeBlocks, ih, List.append_assoc]

/-- After a first part of whole pieces, at least one, the rest comes out as a continuation (R127, R129). -/
theorem squeezeAny_mul_add {q : Sequencer} {m : Nat} (hq : q.smode ≠ .none) (hm : 0 < m) (n : Nat) (cu : Byte) :
    squeezeAny (m * squeezeRate q.smode + n) cu q =
      ((squeezeMoreSeq n (squeezeAny (m * squeezeRate q.smode) cu q).1).1,
        (squeezeAny (m * squeezeRate q.smode) cu q).2 ++
          (squeezeMoreSeq n (squeezeAny (m * squeezeRate q.smode) cu q).1).2) := by
  have hr := squeezeRate_pos hq
  have hne : chunkSizes (m * squeezeRate q.smode) (squeezeRate q.smode) ≠ [] :=
    (chunkSizes_eq_nil hr).not.mpr (Nat.mul_pos hm hr).ne'
  have hmode : (squeezeAny (m * squeezeRate q.smode) cu q).1.smode = q.smode := (squeezeAny_frame ..).smode
  rw [squeezeMoreSeq, hmode, squeezeAny_eq, squeezeAny_eq, chunkSizes_mul_add hr, List.head?_append_of_ne_nil _ hne,
    List.tail_append_of_ne_nil hne, squeezeBlocks_append, List.append_assoc]

/-- Settles O53: the split stands at the end of a piece. -/
theorem squeezeChunkingInvariance : Obligations.SqueezeChunkingInvariance := by
  intro s n1 n2 m hs hm hdin hpos hn1
  rw [← squeezeRate_eq hm] at hn1
  have hmode : (squeezeAny n1 dSqueeze s.seq).1.smode = s.seq.smode := (squeezeAny_frame ..).smode
  have hsplit := squeezeAny_mul_add hm hpos n2 dSqueeze
  rw [← hn1] at hsplit
  refine ⟨_, _, _, exec_sSqueeze hs hm hdin, exec_sSqueezeMore hs ?_ rfl, exec_sSqueeze hs hm hdin,
    ?_, ?_⟩
  · exact ne_of_eq_of_ne hmode hm
  · rw [hsplit]
  · rw [hsplit]

/-! ### S.RATCHET (R147) -/

/-- The ratchet is one `Up` of 16 bytes and one `Down` of them, with T wiped (R147). -/
theorem ratchet_eq {q : Sequencer} (hm : q.smode ≠ .none) :
    ratchet q = (down (some (up (some 16) dRatchet q).2) dZero (up (some 16) dRatchet q).1).wipeT := by
  have hle : 16 ≤ squeezeRate q.smode := by
    rw [squeezeRate_eq hm]
    split <;> decide
  have hlen := length_up_output 16 dRatchet q
  have hphase := up_sphase (some 16) dRatchet q
  rw [ratchet, squeezeAny_of_le hm hle]
  generalize up (some 16) dRatchet q = r at hlen hphase
  have hbuf : fillBuf tBufBytes r.2 = r.2 := by
    rw [fillBuf, hlen]
    exact List.append_nil _
  simp only [loadT_tbuf, hbuf]
  rw [absorbAny_of_length_le (by decide) (hlen.trans_le (by decide)),
    forceUp_of_up (q := r.1.loadT r.2) hphase]
  rfl

theorem ratchet_sphase (q : Sequencer) : (ratchet q).sphase = .down := absorbAny_sphase ..

/-- S.RATCHET without DIN completes in KEYED (R147). -/
theorem exec_sRatchet {s : State} (hs : s.Ready) (hm : s.seq.smode = .keyed) (hdin : s.din = []) :
    exec .sRatchet s = .next { s with
      seq := ratchet s.seq, din := [], dout := [], resp := statusWord false .none .keyed .down } := by
  have hm' : s.seq.smode ≠ .none := by simp [hm]
  have hc := check_eq_none_of_smode (i := .sRatchet) rfl hm' (fun _ => hm) (congrArg List.length hdin)
  unfold exec
  exact runSponge_completes hs hc rfl ((ratchet_smode _).trans hm) (ratchet_sphase _)

/-- `Up` in KEYED (R122): the state permuted is SST with the domain byte in byte 47. -/
theorem up_state_of_keyed (n : Option Nat) (cu : Byte) {q : Sequencer} (hm : q.smode = .keyed) : ∃ v : Lane,
    (∀ k < 48, v.byte k = q.sst.byte k ^^^ (if k = 47 then cu else 0)) ∧
      (up n cu q).1 = { q with sphase := .up, sst := xoodoo 12 v, perms := q.perms + 1 } := by
  obtain ⟨v, hbyte, hup⟩ := upPermutesThenExtracts n cu q
  refine ⟨v, fun k hk => ?_, congrArg Prod.fst hup⟩
  simpa [hm] using hbyte k hk

/-- The bytes `Up` extracts are those of the state it leaves (R122). -/
theorem up_output_byte {n k : Nat} (hk : k < n) (cu : Byte) (q : Sequencer) :
    (up (some n) cu q).2.getD k 0 = (up (some n) cu q).1.sst.byte k := by
  rw [up_output, getD_memRead _ _ hk, Nat.zero_add]

/-- A byte of SST after a `Down` with domain 0 (R123). -/
theorem byte_down_dZero {x : List Byte} (hlen : x.length ≤ 44) (q : Sequencer) {k : Nat} (hk : k < 48) :
    (down (some x) dZero q).sst.byte k = q.sst.byte k ^^^
      (if k < x.length then x.getD k 0 else if k = x.length then 0x01 else 0) := by
  have hdomain : (if q.smode = .hash then dZero &&& 0x01 else dZero) = 0 := by split <;> rfl
  rw [byte_down_of_length_le hlen _ _ hk, hdomain, ite_self]

/-- Settles O48: the 16 bytes taken out are XORed back in, which leaves zeros. -/
theorem ratchetForgetsTheFirstBytes : Obligations.RatchetForgetsTheFirstBytes := by
  intro s hs hm hdin
  have hm' : s.seq.smode ≠ .none := by simp [hm]
  have hlen := length_up_output 16 dRatchet s.seq
  obtain ⟨v, hv, hup⟩ := up_state_of_keyed (some 16) dRatchet hm
  refine ⟨v, (ratchet s.seq).sst, ?_, hv, fun k hk => ?_⟩
  · rw [exec_sRatchet hs hm hdin, ratchet_eq hm', hup]
    rfl
  · have hp : (up (some 16) dRatchet s.seq).1.sst = xoodoo 12 v := congrArg Sequencer.sst hup
    rw [ratchet_eq hm', wipeT_sst, byte_down_dZero (by omega) _ hk, hlen, hp]
    by_cases hfirst : k < 16
    · rw [if_pos hfirst, if_pos hfirst, up_output_byte hfirst, hp]
      exact BitVec.xor_self
    · rw [if_neg hfirst, if_neg hfirst]
      split
      · next heq => rw [heq]
      · exact BitVec.xor_zero

/-! ### The block loop of S.ENCRYPT and S.DECRYPT (R148, R149) -/

/-- What `n` blocks of S.ENCRYPT or S.DECRYPT do to the sequencer besides SST: a permutation each, SPHASE DOWN, K wiped. -/
structure CryptDone (n : Nat) (q q' : Sequencer) : Prop where
  smode : q'.smode = q.smode
  sphase : q'.sphase = .down
  kbuf : q'.kbuf = List.replicate kBufBytes 0
  tbuf : q'.tbuf = q.tbuf
  perms : q'.perms = q.perms + n

theorem CryptDone.trans {m n : Nat} {q q' q'' : Sequencer} (h : CryptDone m q q') (h' : CryptDone n q' q'') :
    CryptDone (m + n) q q'' :=
  ⟨h'.smode.trans h.smode, h'.sphase, h'.kbuf, h'.tbuf.trans h.tbuf, by rw [h'.perms, h.perms, Nat.add_assoc]⟩

/-- One `Up`, one `Down` and a wiped K are one block. -/
theorem cryptDone_block (n : Option Nat) (cu : Byte) (x : Option (List Byte)) (cd : Byte) (q : Sequencer) :
    CryptDone 1 q (down x cd (up n cu q).1).wipeK :=
  ⟨(up_frame n cu q).smode, rfl, rfl, (up_frame n cu q).tbuf, up_perms n cu q⟩

theorem encryptBlock_done (cu : Byte) (p : List Byte) (q : Sequencer) : CryptDone 1 q (encryptBlock cu p q).1 := by
  rw [encryptBlock_state]
  exact cryptDone_block ..

theorem decryptBlock_done (cu : Byte) (c : List Byte) (q : Sequencer) : CryptDone 1 q (decryptBlock cu c q).1 := by
  rw [decryptBlock_state]
  exact cryptDone_block ..

theorem cryptLoop_done {block : Byte → List Byte → Sequencer → Sequencer × List Byte}
    (hb : ∀ cu x q, CryptDone 1 q (block cu x q).1) (cu : Byte) (x : List Byte) (xs : List (List Byte)) (q : Sequencer) :
    CryptDone (1 + xs.length) q (cryptLoop block cu (x :: xs) q).1 := by
  induction xs generalizing cu x q with
  | nil => exact hb cu x q
  | cons y ys ih =>
    rw [cryptLoop_cons, List.length_cons, Nat.add_comm ys.length 1]
    exact (hb cu x q).trans (ih dZero y _)

theorem cryptLoop_cryptBlocks_done {block : Byte → List Byte → Sequencer → Sequencer × List Byte}
    (hb : ∀ cu x q, CryptDone 1 q (block cu x q).1) (cu : Byte) (x : List Byte) (q : Sequencer) :
    CryptDone (max 1 ((x.length + 23) / 24)) q (cryptLoop block cu (cryptBlocks x) q).1 := by
  have hcount : 1 + (chunks x 24).tail.length = max 1 ((x.length + 23) / 24) := by
    rw [List.length_tail, length_chunks, pieces, show x.length + 24 - 1 = x.length + 23 from rfl]
    omega
  rw [cryptBlocks_eq, ← hcount]
  exact cryptLoop_done hb ..

/-- The whole block loop as a fold of `g`, when a block is `g` with K wiped and does not look at K. -/
theorem cryptLoop_cryptBlocks_eq_foldl {block g : Byte → List Byte → Sequencer → Sequencer × List Byte}
    (hb : ∀ cu x q, block cu x q = ((g cu x q).1.wipeK, (g cu x q).2))
    (hwiped : ∀ x q, block dZero x q.wipeK = ((g dZero x q).1.wipeK, (g dZero x q).2))
    {cu : Byte} {x : List Byte} {q : Sequencer} {r : Sequencer × List Byte}
    (hr : r = (chunks x 24).tail.foldl (fun a y => ((g dZero y a.1).1, a.2 ++ (g dZero y a.1).2))
      (g cu ((chunks x 24).headD []) q)) :
    cryptLoop block cu (cryptBlocks x) q = (r.1.wipeK, r.2) := by
  obtain ⟨hseq, hout⟩ := cryptLoop_foldl hwiped (chunks x 24).tail (g cu ((chunks x 24).headD []) q).1
    (g cu ((chunks x 24).headD []) q).2
  rw [cryptBlocks_eq, cryptLoop_cons, hb, ← hseq, ← hout, hr]

/-- A message of at most 24 bytes, the empty one included, is one block (R148, D13). -/
theorem cryptBlocks_of_length_le {x : List Byte} (hlen : x.length ≤ 24) : cryptBlocks x = [x] := by
  rcases eq_or_ne x [] with rfl | hx
  · rw [cryptBlocks, chunks_nil (by decide)]
  · rw [cryptBlocks, chunks_of_length_le (by decide) hx hlen]

theorem cryptBlocks_of_ne_nil {x : List Byte} (hx : x ≠ []) : cryptBlocks x = chunks x 24 := by
  rw [cryptBlocks, chunks_cons (by decide) hx]

theorem cryptLoop_nil (block : Byte → List Byte → Sequencer → Sequencer × List Byte) (cu : Byte) (q : Sequencer) :
    cryptLoop block cu [] q = (q, []) := rfl

theorem cryptLoop_singleton (block : Byte → List Byte → Sequencer → Sequencer × List Byte) (cu : Byte) (x : List Byte)
    (q : Sequencer) : cryptLoop block cu [x] q = block cu x q := by
  rw [cryptLoop_cons]
  exact Prod.ext rfl (List.append_nil _)

/-- The keystream XORed onto `x`, byte by byte (R148, R149). -/
theorem xorSeq_up_output_byte (x : List Byte) (cu : Byte) (q : Sequencer) {k : Nat} (hk : k < x.length) :
    (xorSeq x (up (some x.length) cu q).2).getD k 0 =
      x.getD k 0 ^^^ (up (some x.length) cu q).1.sst.byte k := by
  rw [getD_xorSeq _ _ (length_up_output ..).symm, up_output_byte hk]

/-! ### S.ENCRYPT (R148) -/

/-- A block of S.ENCRYPT without K: the state and the ciphertext (R148). -/
def encryptStep (cu : Byte) (p : List Byte) (q : Sequencer) : Sequencer × List Byte :=
  (down (some p) dZero (up (some p.length) cu q).1, xorSeq p (up (some p.length) cu q).2)

/-- S.ENCRYPT block by block (R148): K is wiped after each block, and no block reads what it held before. -/
theorem encryptSeq_eq_foldl (x : List Byte) (q : Sequencer) {r : Sequencer × List Byte}
    (hr : r = (chunks x 24).tail.foldl (fun a y => ((encryptStep dZero y a.1).1, a.2 ++ (encryptStep dZero y a.1).2))
      (encryptStep dCrypt ((chunks x 24).headD []) q)) : encryptSeq x q = (r.1.wipeK, r.2) :=
  cryptLoop_cryptBlocks_eq_foldl (g := encryptStep) encryptBlock_state (encryptBlock_wipeK dZero) hr

theorem encryptSeq_done {x : List Byte} {len : Nat} (hx : x.length = len) (q : Sequencer) :
    CryptDone (max 1 ((len + 23) / 24)) q (encryptSeq x q).1 := by
  rw [← hx]
  exact cryptLoop_cryptBlocks_done encryptBlock_done dCrypt x q

theorem length_encryptSeq (x : List Byte) (q : Sequencer) : (encryptSeq x q).2.length = x.length :=
  length_cryptLoop_cryptBlocks length_encryptBlock ..

/-- S.ENCRYPT with its DIN completes in KEYED (R148). -/
theorem exec_sEncrypt {s : State} {len : Nat} (hs : s.Ready) (hm : s.seq.smode = .keyed) (hdin : s.din.length = len) :
    exec (.sEncrypt len) s = .next { s with
      seq := (encryptSeq s.din s.seq).1, din := [], dout := (encryptSeq s.din s.seq).2
      resp := statusWord false .none .keyed .down } := by
  have hc := check_eq_none_of_smode (i := .sEncrypt len) rfl (by simp [hm]) (fun _ => hm) hdin
  obtain ⟨hmode, hphase, -, -, -⟩ := encryptSeq_done hdin s.seq
  unfold exec
  exact runSponge_completes hs hc rfl (hmode.trans hm) hphase

/-- One block of plaintext of at most 24 bytes leaves the ciphertext at the start of SST, and the pad after it (R148). -/
theorem byte_encryptBlock {p : List Byte} (hlen : p.length ≤ 24) (cu : Byte) (q : Sequencer) {k : Nat} (hk : k < 48) :
    (encryptBlock cu p q).1.sst.byte k =
      if k < p.length then (encryptBlock cu p q).2.getD k 0
      else if k = p.length then (up (some p.length) cu q).1.sst.byte k ^^^ 0x01
      else (up (some p.length) cu q).1.sst.byte k := by
  rw [encryptBlock_state, wipeK_sst, byte_down_dZero (by omega) _ hk]
  split
  · next hblock => rw [xorSeq_up_output_byte _ _ _ hblock, BitVec.xor_comm]
  · split
    · rfl
    · exact BitVec.xor_zero

/-- Settles O49: the block loop is a fold of `encryptStep`, and one block is `encryptBlock`. -/
theorem encryptXorsTheKeystream : Obligations.EncryptXorsTheKeystream := by
  intro s len hs hm hdin
  obtain ⟨hmode, hphase, hkbuf, htbuf, hperms⟩ := encryptSeq_done hdin s.seq
  refine ⟨_, _, exec_sEncrypt hs hm hdin, (length_encryptSeq ..).trans hdin, hmode.trans hm, hphase, hkbuf, htbuf,
    hperms, ?_, fun hlen => ?_⟩
  · have hloop := encryptSeq_eq_foldl s.din s.seq rfl
    exact Prod.ext_iff.mp hloop
  · obtain ⟨v, hv, hup⟩ := up_state_of_keyed (some s.din.length) dCrypt hm
    have hone : encryptSeq s.din s.seq = encryptBlock dCrypt s.din s.seq := by
      rw [encryptSeq, cryptBlocks_of_length_le (hdin.trans_le hlen), cryptLoop_singleton]
    have hsst : (up (some s.din.length) dCrypt s.seq).1.sst = xoodoo 12 v := congrArg Sequencer.sst hup
    subst hdin
    refine ⟨v, hv, fun k hk => ?_, fun k hk => ?_⟩
    · rw [hone, encryptBlock_state, xorSeq_up_output_byte _ _ _ hk, hsst]
    · rw [hone, byte_encryptBlock hlen _ _ hk, hsst]

/-! ### S.DECRYPT (R149) -/

theorem decryptSeq_done {x : List Byte} {len : Nat} (hx : x.length = len) (q : Sequencer) :
    CryptDone (max 1 ((len + 23) / 24)) q (decryptSeq x q).1 := by
  rw [← hx]
  exact cryptLoop_cryptBlocks_done decryptBlock_done dCrypt x q

theorem length_decryptSeq (x : List Byte) (q : Sequencer) : (decryptSeq x q).2.length = x.length :=
  length_cryptLoop_cryptBlocks length_decryptBlock ..

/-- S.DECRYPT with its DIN completes in KEYED (R149). -/
theorem exec_sDecrypt {s : State} {len : Nat} (hs : s.Ready) (hm : s.seq.smode = .keyed) (hdin : s.din.length = len) :
    exec (.sDecrypt len) s = .next { s with
      seq := (decryptSeq s.din s.seq).1, din := [], dout := (decryptSeq s.din s.seq).2
      resp := statusWord false .none .keyed .down } := by
  have hc := check_eq_none_of_smode (i := .sDecrypt len) rfl (by simp [hm]) (fun _ => hm) hdin
  obtain ⟨hmode, hphase, -, -, -⟩ := decryptSeq_done hdin s.seq
  unfold exec
  exact runSponge_completes hs hc rfl (hmode.trans hm) hphase

/-- A block of S.DECRYPT without K: the state and the plaintext (R149). -/
def decryptStep (cu : Byte) (c : List Byte) (q : Sequencer) : Sequencer × List Byte :=
  (down (some (xorSeq c (up (some c.length) cu q).2)) dZero (up (some c.length) cu q).1,
    xorSeq c (up (some c.length) cu q).2)

/-- S.DECRYPT block by block (R149), as `encryptSeq_eq_foldl`. -/
theorem decryptSeq_eq_foldl (x : List Byte) (q : Sequencer) {r : Sequencer × List Byte}
    (hr : r = (chunks x 24).tail.foldl (fun a y => ((decryptStep dZero y a.1).1, a.2 ++ (decryptStep dZero y a.1).2))
      (decryptStep dCrypt ((chunks x 24).headD []) q)) : decryptSeq x q = (r.1.wipeK, r.2) :=
  cryptLoop_cryptBlocks_eq_foldl (g := decryptStep) decryptBlock_state (decryptBlock_wipeK dZero) hr

/-- One block of ciphertext of at most 24 bytes stands at the start of SST, with the pad after it (R149). -/
theorem byte_decryptBlock {c : List Byte} (hlen : c.length ≤ 24) (cu : Byte) (q : Sequencer) {k : Nat} (hk : k < 48) :
    (decryptBlock cu c q).1.sst.byte k =
      if k < c.length then c.getD k 0
      else if k = c.length then (up (some c.length) cu q).1.sst.byte k ^^^ 0x01
      else (up (some c.length) cu q).1.sst.byte k := by
  have hplain : (xorSeq c (up (some c.length) cu q).2).length = c.length := by
    rw [length_xorSeq, length_up_output, Nat.min_self]
  rw [decryptBlock_state, wipeK_sst, byte_down_dZero (by omega) _ hk, hplain]
  split
  · next hblock =>
    rw [xorSeq_up_output_byte _ _ _ hblock, BitVec.xor_comm, BitVec.xor_assoc, BitVec.xor_self, BitVec.xor_zero]
  · split
    · rfl
    · exact BitVec.xor_zero

/-- Settles O50: the block loop is a fold of `decryptStep`, and one block is `decryptBlock`. -/
theorem decryptRecoversThenAbsorbs : Obligations.DecryptRecoversThenAbsorbs := by
  intro s len hs hm hdin
  obtain ⟨hmode, hphase, hkbuf, htbuf, hperms⟩ := decryptSeq_done hdin s.seq
  refine ⟨_, _, exec_sDecrypt hs hm hdin, (length_decryptSeq ..).trans hdin, hmode.trans hm, hphase, hkbuf, htbuf,
    hperms, ?_, fun hlen => ?_⟩
  · have hloop := decryptSeq_eq_foldl s.din s.seq rfl
    exact Prod.ext_iff.mp hloop
  · obtain ⟨v, hv, hup⟩ := up_state_of_keyed (some s.din.length) dCrypt hm
    have hone : decryptSeq s.din s.seq = decryptBlock dCrypt s.din s.seq := by
      rw [decryptSeq, cryptBlocks_of_length_le (hdin.trans_le hlen), cryptLoop_singleton]
    have hsst : (up (some s.din.length) dCrypt s.seq).1.sst = xoodoo 12 v := congrArg Sequencer.sst hup
    subst hdin
    refine ⟨v, hv, fun k hk => ?_, fun k hk => ?_⟩
    · rw [hone, decryptBlock_state, xorSeq_up_output_byte _ _ _ hk, hsst]
    · rw [hone, byte_decryptBlock hlen _ _ hk, hsst]

/-! ### Decrypting what was encrypted (R156) -/

/-- Decrypting the block an encryption gave returns the plaintext and leaves the encryptor's state (R156). -/
theorem decryptBlock_encryptBlock (cu : Byte) (p : List Byte) (q : Sequencer) :
    decryptBlock cu (encryptBlock cu p q).2 q = ((encryptBlock cu p q).1, p) := by
  have hlen := length_encryptBlock cu p q
  rw [encryptBlock_state] at hlen ⊢
  rw [decryptBlock_state, hlen, xorSeq_xorSeq_self _ _ (length_up_output ..).symm]

/-- A sequence whose first part is as long as the first piece of `x`, and its rest as the rest of `x`, is cut where `x`
is (R9). -/
theorem chunks_append_of_length {r : Nat} (hr : 0 < r) {x a b : List Byte} (hx : x ≠ [])
    (ha : a.length = (x.take r).length) (hb : b.length = (x.drop r).length) :
    chunks (a ++ b) r = a :: chunks b r := by
  have hpos := List.length_pos_iff.mpr hx
  rw [List.length_take] at ha
  rw [List.length_drop] at hb
  have hne : a ++ b ≠ [] := List.append_ne_nil_of_left_ne_nil (List.ne_nil_of_length_pos (by omega)) b
  rw [chunks_cons hr hne, List.take_append, List.drop_append, List.take_of_length_le (by omega),
    List.drop_of_length_le (by omega)]
  rcases Nat.lt_or_ge r x.length with hlong | hshort
  · have hfull : r - a.length = 0 := by omega
    rw [hfull, List.take_zero, List.drop_zero, List.append_nil, List.nil_append]
  · have hnil : b = [] := List.eq_nil_of_length_eq_zero (by omega)
    rw [hnil, List.take_nil, List.drop_nil, List.append_nil, List.append_nil]

/-- Decrypting the pieces of what encrypting the pieces of `x` gave returns `x` and leaves the encryptor's state. -/
theorem cryptLoop_decryptBlock_encryptBlock (cu : Byte) (x : List Byte) (q : Sequencer) :
    cryptLoop decryptBlock cu (chunks (cryptLoop encryptBlock cu (chunks x 24) q).2 24) q =
      ((cryptLoop encryptBlock cu (chunks x 24) q).1, x) := by
  induction hn : x.length using Nat.strong_induction_on generalizing cu x q with
  | _ n ih =>
    rcases eq_or_ne x [] with rfl | hx
    · have hnil : chunks [] 24 = [] := chunks_nil (by decide)
      rw [hnil, cryptLoop_nil, hnil, cryptLoop_nil]
    · have hpos := List.length_pos_iff.mpr hx
      have hrest := ih (x.drop 24).length (by rw [List.length_drop]; omega) dZero (x.drop 24)
        (encryptBlock cu (x.take 24) q).1 rfl
      have hlen : (cryptLoop encryptBlock dZero (chunks (x.drop 24) 24) (encryptBlock cu (x.take 24) q).1).2.length =
          (x.drop 24).length := by rw [length_cryptLoop length_encryptBlock, flatten_chunks (by decide)]
      rw [chunks_cons (by decide) hx, cryptLoop_cons,
        chunks_append_of_length (by decide) hx (length_encryptBlock ..) hlen, cryptLoop_cons, decryptBlock_encryptBlock,
        hrest, List.take_append_drop]

/-- The same for whole messages, the empty one being one empty block (R156, D13). -/
theorem decryptSeq_encryptSeq (x : List Byte) (q : Sequencer) :
    decryptSeq (encryptSeq x q).2 q = ((encryptSeq x q).1, x) := by
  have hlen := length_encryptSeq x q
  rcases eq_or_ne x [] with rfl | hx
  · have hone : encryptSeq [] q = encryptBlock dCrypt [] q := by
      rw [encryptSeq, cryptBlocks_of_length_le (Nat.zero_le _), cryptLoop_singleton]
    rw [decryptSeq, cryptBlocks_of_length_le (hlen.trans_le (Nat.zero_le _)), cryptLoop_singleton, hone,
      decryptBlock_encryptBlock]
  · have hne : (encryptSeq x q).2 ≠ [] := List.ne_nil_of_length_pos (hlen ▸ List.length_pos_iff.mpr hx)
    rw [decryptSeq, cryptBlocks_of_ne_nil hne, encryptSeq, cryptBlocks_of_ne_nil hx,
      cryptLoop_decryptBlock_encryptBlock]

/-- Settles O51: the two sequencers are equal, so a later squeeze cannot tell them apart. -/
theorem decryptUndoesEncrypt : Obligations.DecryptUndoesEncrypt := by
  intro s len hs hm hdin
  have hback := decryptSeq_encryptSeq s.din s.seq
  have hlen : (encryptSeq s.din s.seq).2.length = len := (length_encryptSeq ..).trans hdin
  have hmode : (encryptSeq s.din s.seq).1.smode ≠ .none := by
    rw [(encryptSeq_done hdin s.seq).smode, hm]
    decide
  refine ⟨_, _, exec_sEncrypt hs hm hdin, exec_sDecrypt (s := { s with din := (encryptSeq s.din s.seq).2 }) hs hm hlen,
    ?_, ?_, fun n => ⟨_, _, exec_sSqueeze hs hmode rfl, exec_sSqueeze hs ?_ rfl, ?_⟩⟩
  · rw [hback]
  · rw [hback]
  · rwa [hback]
  · rw [hback]

/-! ### The sequencer after any command (R151, R155) -/

/-- What a command that passes its checks makes of the sequencer. -/
def sequencerAfter (i : Instr) (din : List Byte) (q : Sequencer) : Sequencer :=
  match i with
  | .rdStatus | .rdConfig | .ePermute | .eAdd _ _ _ | .eExtract _ _ | .eZeroize => q
  | .sHash => startSponge .hash q
  | .sKeyed klen idlen nlen ctr => startKeyed klen idlen nlen ctr din q
  | .sAbsorb _ => absorbAny din (absorbRate q.smode) dAbsorb q
  | .sAbsorbMore _ => absorbMoreSeq din (absorbRate q.smode) q
  | .sSqueeze len => (squeezeAny len dSqueeze q).1
  | .sSqueezeMore len => (squeezeMoreSeq len q).1
  | .sSqueezeKey len => (squeezeAny len dSqueezeKey q).1
  | .sRatchet => ratchet q
  | .sEncrypt _ => (encryptSeq din q).1
  | .sDecrypt _ => (decryptSeq din q).1
  | .sRelease => startSponge .none q

theorem runCommand_sequencer {i : Instr} {f : State → State × List Byte} {s t : State} (hs : s.fault = false)
    (hf : (f s).1.fault = s.fault) (h : runCommand i f s = .next t) :
    (t.fault = true ∧ t.seq = s.seq) ∨ (t.fault = false ∧ check i s = .none ∧ t.seq = (f s).1.seq) := by
  rcases runCommand_cases h with ⟨rfl, ⟨-, hc⟩ | ⟨hfault, -⟩⟩ | ⟨rfl, -⟩ | ⟨-, hfault, -⟩
  · exact .inr ⟨hf.trans hs, hc, rfl⟩
  · simp [hs] at hfault
  · exact .inl ⟨rfl, rfl⟩
  · simp [hs] at hfault

/-- All a command can do to the sequencer of a block without a fault: leave it alone and fault, or its effect. -/
theorem exec_sequencer {i : Instr} {s t : State} (hs : s.fault = false) (h : exec i s = .next t) :
    (t.fault = true ∧ t.seq = s.seq) ∨
      (t.fault = false ∧ check i s = .none ∧ t.seq = sequencerAfter i s.din s.seq) := by
  unfold exec at h
  cases i <;> exact runCommand_sequencer hs rfl h

/-- Settles O55: a command that succeeds has had its effect, and SPHASE is its last primitive's. -/
theorem phaseAfterEachCommand : Obligations.PhaseAfterEachCommand := by
  intro i s t ⟨hs, _⟩ h hok
  rcases exec_sequencer hs h with ⟨hfault, -⟩ | ⟨-, hc, hseq⟩
  · simp [hok] at hfault
  rw [hseq]
  cases i with
  | rdStatus | rdConfig | ePermute | eAdd | eExtract | eZeroize | sHash | sRelease => rfl
  | sKeyed => exact startKeyed_sphase ..
  | sAbsorb => exact absorbAny_sphase ..
  | sRatchet => exact ratchet_sphase _
  | sSqueeze | sSqueezeKey => exact squeezeAny_sphase ..
  | sEncrypt => exact (encryptSeq_done (length_din_of_check hc) _).sphase
  | sDecrypt => exact (decryptSeq_done (length_din_of_check hc) _).sphase
  | sAbsorbMore len =>
    have hdin : s.din.length = len := length_din_of_check hc
    have hm := smode_ne_none_of_check hc rfl
    simp only [sequencerAfter, absorbMoreSeq_sphase _ (absorbRate_pos hm), ← hdin, List.length_pos_iff, ite_not]
  | sSqueezeMore len =>
    have hm := smode_ne_none_of_check hc rfl
    simp only [sequencerAfter, squeezeMoreSeq_sphase len hm, Nat.pos_iff_ne_zero, ite_not]

/-- Check 8 of R181: S.KEYED passes the checks only when its IV fits. -/
theorem iv_fits_of_check {s : State} {klen idlen nlen : Nat} {ctr : Option Nat}
    (hc : check (.sKeyed klen idlen nlen ctr) s = .none) : klen + idlen + nlen ≤ 43 := by
  have hcond : ivTooLong (.sKeyed klen idlen nlen ctr) = false :=
    conditions_false_of_firstCause (by simp) hc (ivTooLong (.sKeyed klen idlen nlen ctr), .ivTooLong) (by simp)
  have hle : ¬44 < klen + idlen + nlen + 1 := of_decide_eq_false hcond
  omega

theorem pieces_absorbRate {m : SMode} (hm : m ≠ .none) (n : Nat) :
    pieces n (absorbRate m) = if m = .hash then (n + 15) / 16 else (n + 43) / 44 := by
  cases m with
  | none => exact absurd rfl hm
  | hash | keyed => rfl

theorem pieces_squeezeRate {m : SMode} (hm : m ≠ .none) (n : Nat) :
    pieces n (squeezeRate m) = if m = .hash then (n + 15) / 16 else (n + 23) / 24 := by
  cases m with
  | none => exact absurd rfl hm
  | hash | keyed => rfl

theorem squeezeAny_perms {q : Sequencer} (hm : q.smode ≠ .none) (n : Nat) (cu : Byte) :
    (squeezeAny n cu q).1.perms =
      q.perms + max 1 (if q.smode = .hash then (n + 15) / 16 else (n + 23) / 24) := by
  obtain ⟨-, -, hperms, -⟩ := squeezeAny_facts n cu q hm
  rw [hperms, pieces_squeezeRate hm]

theorem ratchet_perms {q : Sequencer} (hm : q.smode ≠ .none) : (ratchet q).perms = q.perms + 1 := by
  rw [ratchet_eq hm, wipeT_perms, down_perms, up_perms]

/-- Settles O56: a command that faults leaves the count alone, and the loops of the others count their pieces. -/
theorem permutationCountOfEachCommand : Obligations.PermutationCountOfEachCommand := by
  intro i s t ⟨hs, _⟩ h
  rcases exec_sequencer hs h with ⟨hfault, hseq⟩ | ⟨hok, hc, hseq⟩
  · rw [hseq, hfault]
    rfl
  have hdin := length_din_of_check hc
  rw [hseq, hok, if_neg Bool.false_ne_true]
  cases i with
  | rdStatus | rdConfig | ePermute | eAdd | eExtract | eZeroize | sHash | sRelease => rfl
  | sKeyed klen idlen nlen ctr =>
    have hiv := iv_fits_of_check hc
    cases ctr with
    | none => exact startKeyed_none_perms hiv ..
    | some len => exact startKeyed_some_perms hdin hiv _
  | sAbsorb len =>
    have hm := smode_ne_none_of_check hc rfl
    obtain ⟨-, -, hperms⟩ := absorbAny_facts s.din (absorbRate s.seq.smode) dAbsorb s.seq
    rw [hdin, pieces_absorbRate hm, Nat.add_assoc] at hperms
    exact hperms
  | sAbsorbMore len =>
    have hm := smode_ne_none_of_check hc rfl
    obtain ⟨-, hperms, -⟩ := foldl_absorbStep (chunks s.din (absorbRate s.seq.smode)) s.seq
    rw [length_chunks, hdin, pieces_absorbRate hm] at hperms
    exact hperms
  | sSqueeze | sSqueezeKey => exact squeezeAny_perms (smode_ne_none_of_check hc rfl) ..
  | sSqueezeMore len =>
    have hm := smode_ne_none_of_check hc rfl
    obtain ⟨-, hperms, -⟩ := squeezeBlocks_facts (chunkSizes len (squeezeRate s.seq.smode)) s.seq
    rw [length_chunkSizes, pieces_squeezeRate hm] at hperms
    exact hperms
  | sRatchet => exact ratchet_perms (smode_ne_none_of_check hc rfl)
  | sEncrypt => exact (encryptSeq_done hdin _).perms
  | sDecrypt => exact (decryptSeq_done hdin _).perms

end Sys2Proof.Machine

/-! PROOFS of the system family (spec/44_system.md). A register read without DIN runs whether the block is faulted or not
(`runCommand_of_registerRead`): faulted, it is the one kind of command R183 lets through; otherwise no check stops it. The
bytes of CONFIG are those of a word put together from N, R + 0xC0, 48 and 1 (`configWord_eq_wordOfBytes`). -/

namespace Sys2Proof.Machine

/-! ### Register reads run in either state (R181, R183) -/

/-- A register read without DIN passes every check (R181). -/
theorem check_of_registerRead {i : Instr} {s : State} (hi : isRegisterRead i = true) (hdin : s.din = []) :
    check i s = .none := by
  cases i with
  | rdStatus | rdConfig => exact check_eq_none (congrArg List.length hdin) rfl rfl rfl nofun nofun rfl
  | _ => cases hi

/-- A register read without DIN has its effect, faulted or not (R67, R183). -/
theorem runCommand_of_registerRead {i : Instr} {f : State → State × List Byte} {s : State}
    (hi : isRegisterRead i = true) (hdin : s.din = []) : runCommand i f s = .next (respond (f s).2 (f s).1) := by
  cases hfault : s.fault with
  | true => exact runCommand_reads hfault hi hdin
  | false => exact runCommand_passes hfault (check_of_registerRead hi hdin)

/-! ### RD_STATUS (R170) -/

theorem exec_rdStatus {s : State} (hdin : s.din = []) :
    exec .rdStatus s = .next (respond (wordBytes (status s)) s) :=
  runCommand_of_registerRead rfl hdin

/-- Settles O20: the answer is the bytes of STATUS, written out by `wordBytes_eq`. -/
theorem rdStatusReturnsStatus : Obligations.RdStatusReturnsStatus := by
  intro s hdin
  rw [exec_rdStatus hdin, respond, wordBytes_eq]

/-! ### RD_CONFIG (R18, R171) -/

theorem exec_rdConfig {s : State} (hdin : s.din = []) :
    exec .rdConfig s = .next (respond (wordBytes (config s)) s) :=
  runCommand_of_registerRead rfl hdin

/-- Bytes put together into a word are the bytes of that word (R66). -/
theorem wordBytes_wordOfBytes (b0 b1 b2 b3 : Byte) : wordBytes (wordOfBytes b0 b1 b2 b3) = [b0, b1, b2, b3] := by
  obtain ⟨h0, h1, h2, h3⟩ := wordByte_wordOfBytes b0 b1 b2 b3
  rw [wordBytes, h0, h1, h2, h3]

/-- CONFIG of a legal build byte by byte: N, then R below the 12 of R18 in one byte, then 48, then 1. -/
theorem configWord_eq_wordOfBytes {n r : Nat} (hn : Config.LegalLanes n) (hr : Config.LegalRounds r) :
    configWord n r = wordOfBytes (BitVec.ofNat 8 n) (BitVec.ofNat 8 (r + 0xC0)) 0x30 0x01 := by
  have ⟨_, hn255⟩ := hn
  have ⟨_, hr12⟩ := hr
  have hbyte0 : (BitVec.ofNat 8 n).toNat = n := toNat_ofNat_of_lt (by omega)
  have hbyte1 : (BitVec.ofNat 8 (r + 0xC0)).toNat = r + 0xC0 := toNat_ofNat_of_lt (by omega)
  apply BitVec.eq_of_toNat_eq
  calc (configWord n r).toNat
      = n + r * 2 ^ 8 + 12 * 2 ^ 12 + 48 * 2 ^ 16 + 1 * 2 ^ 24 := toNat_configWord hn hr
    _ = n + (r + 0xC0) * 2 ^ 8 + 48 * 2 ^ 16 + 1 * 2 ^ 24 := by omega
    _ = _ := by rw [toNat_wordOfBytes, hbyte0, hbyte1]; rfl

/-- Settles O21: the answer is the bytes that CONFIG of a legal build is put together from. -/
theorem rdConfigReturnsBuildParameters : Obligations.RdConfigReturnsBuildParameters := by
  intro s ⟨hlanes, hrounds⟩ hdin
  rw [exec_rdConfig hdin, respond, config, configWord_eq_wordOfBytes hlanes hrounds, wordBytes_wordOfBytes]
  rfl

end Sys2Proof.Machine

/-! PROOFS of the exceptions family (spec/60_exceptions.md). R181 is said twice in the model: by the decoder and
`check`, which the machine runs, and by `specCheck` on the raw words. `specCheck_eq_causeOf` shows that they agree, opcode
by opcode: the opcode fixes which conditions of `specCheck` are left, and those are the conditions of its format and
command. -/

namespace Sys2Proof.Machine

/-! ### Checks 3 to 8, by command (R181) -/

theorem check_eq_ite (i : Instr) (s : State) : check i s =
    if s.din.length ≠ dinLen i then .dinLength
    else if namesLaneFrom s.nLanes i = true then .laneRange
    else if addPastEnd i = true then .addBounds
    else if extractPastEnd i = true then .extractBounds
    else if needsSponge i = true ∧ s.seq.smode = .none then .spongeUninit
    else if needsKeyed i = true ∧ s.seq.smode = .hash then .keyedOnly
    else if ivTooLong i = true then .ivTooLong
    else .none := by
  simp [check, firstCause]

/-- A command of format N or L names no lane, range or IV, so DIN and SMODE alone can stop it. -/
theorem check_eq_of_plain {i : Instr} (s : State) (hlane : namesLaneFrom s.nLanes i = false)
    (hadd : addPastEnd i = false) (hextract : extractPastEnd i = false) (hiv : ivTooLong i = false) : check i s =
    if s.din.length ≠ dinLen i then .dinLength
    else if needsSponge i = true ∧ s.seq.smode = .none then .spongeUninit
    else if needsKeyed i = true ∧ s.seq.smode = .hash then .keyedOnly
    else .none := by
  simp [check_eq_ite, hlane, hadd, hextract, hiv]

theorem check_eAdd_eq (lane off len : Nat) (s : State) : check (.eAdd lane off len) s =
    if s.din.length ≠ len then .dinLength
    else if s.nLanes ≤ lane then .laneRange
    else if 48 < off + len then .addBounds
    else .none := by
  simp [check_eq_ite, dinLen, namesLaneFrom, addPastEnd, extractPastEnd, needsSponge, needsKeyed, ivTooLong]

theorem check_eExtract_eq (lane len : Nat) (s : State) : check (.eExtract lane len) s =
    if s.din.length ≠ 0 then .dinLength
    else if s.nLanes ≤ lane then .laneRange
    else if 48 < len then .extractBounds
    else .none := by
  simp [check_eq_ite, dinLen, namesLaneFrom, addPastEnd, extractPastEnd, needsSponge, needsKeyed, ivTooLong]

theorem check_sKeyed_eq (klen idlen nlen : Nat) (ctr : Option Nat) (s : State) :
    check (.sKeyed klen idlen nlen ctr) s =
      if s.din.length ≠ klen + idlen + nlen + ctr.getD 0 then .dinLength
      else if 44 < klen + idlen + nlen + 1 then .ivTooLong
      else .none := by
  simp [check_eq_ite, dinLen, namesLaneFrom, addPastEnd, extractPastEnd, needsSponge, needsKeyed, ivTooLong]

/-! ### Checks 2 to 8, by format, in numbers of the words (R52 to R55, R181) -/

/-- The cause that decoding and then checking a transaction finds, NONE if every check passes. -/
def causeOf (d : Except Reject Instr) (s : State) : Cause :=
  match d with
  | .ok i => check i s
  | .error e => rejectCause e

theorem causeOf_unlessReserved {zero : Bool} {P : Prop} [Decidable P] (h : zero = true ↔ ¬P) (i : Instr) (s : State) :
    causeOf (unlessReserved zero i) s = if P then .reservedNonzero else check i s := by
  by_cases hP : P
  · have hzero : zero = false := by simpa [hP] using h
    rw [hzero, if_pos hP]
    rfl
  · rw [h.mpr hP, if_neg hP]
    rfl

/-- A field that ends at the top of CMD is a quotient alone. -/
theorem field_eq_div {lo n : Nat} (h : lo + n = 32) (w : Word) : field w lo n = w.toNat / 2 ^ lo := by
  have hlt : w.toNat / 2 ^ lo < 2 ^ n := Nat.div_lt_of_lt_mul (by rw [← Nat.pow_add, h]; exact w.isLt)
  rw [field_eq_div_mod, Nat.mod_eq_of_lt hlt]

theorem causeOf_decodeN (i : Instr) (cmd len : Word) (s : State) : causeOf (decodeN i cmd len) s =
    if cmd.toNat / 2 ^ 8 ≠ 0 ∨ len.toNat ≠ 0 then .reservedNonzero else check i s :=
  causeOf_unlessReserved (by simp [field_eq_div, BitVec.toNat_eq]) ..

theorem causeOf_decodeL (mk : Nat → Instr) (cmd len : Word) (s : State) : causeOf (decodeL mk cmd len) s =
    if cmd.toNat / 2 ^ 8 ≠ 0 then .reservedNonzero else check (mk len.toNat) s :=
  causeOf_unlessReserved (by simp [field_eq_div]) ..

theorem causeOf_decodeEAdd (cmd len : Word) (s : State) : causeOf (decodeEAdd cmd len) s =
    if cmd.toNat / 2 ^ 22 ≠ 0 then .reservedNonzero
    else check (.eAdd (cmd.toNat / 2 ^ 8 % 2 ^ 8) (cmd.toNat / 2 ^ 16 % 2 ^ 6) len.toNat) s := by
  rw [← field_eq_div_mod, ← field_eq_div_mod]
  exact causeOf_unlessReserved (by simp [field_eq_div]) ..

theorem causeOf_decodeEExtract (cmd len : Word) (s : State) : causeOf (decodeEExtract cmd len) s =
    if cmd.toNat / 2 ^ 16 ≠ 0 then .reservedNonzero
    else check (.eExtract (cmd.toNat / 2 ^ 8 % 2 ^ 8) len.toNat) s := by
  rw [← field_eq_div_mod]
  exact causeOf_unlessReserved (by simp [field_eq_div]) ..

/-- Without a counter LEN is reserved, so past check 2 the counter's length is LEN either way (R55). -/
theorem causeOf_decodeSKeyed (cmd len : Word) (s : State) : causeOf (decodeSKeyed cmd len) s =
    if cmd.toNat / 2 ^ 27 ≠ 0 ∨ cmd.toNat / 2 ^ 26 % 2 = 0 ∧ len.toNat ≠ 0 then .reservedNonzero
    else if s.din.length ≠ cmd.toNat / 2 ^ 8 % 2 ^ 6 + cmd.toNat / 2 ^ 14 % 2 ^ 6 + cmd.toNat / 2 ^ 20 % 2 ^ 6 +
      len.toNat then .dinLength
    else if 44 < cmd.toNat / 2 ^ 8 % 2 ^ 6 + cmd.toNat / 2 ^ 14 % 2 ^ 6 + cmd.toNat / 2 ^ 20 % 2 ^ 6 + 1 then .ivTooLong
    else .none := by
  have hctrp : (field cmd 26 1 == 1) = true ↔ cmd.toNat / 2 ^ 26 % 2 ≠ 0 := by
    rw [field_eq_div_mod, beq_iff_eq]
    omega
  have hzero : (field cmd 27 5 == 0 && (field cmd 26 1 == 1 || len == 0)) = true ↔
      ¬(cmd.toNat / 2 ^ 27 ≠ 0 ∨ cmd.toNat / 2 ^ 26 % 2 = 0 ∧ len.toNat ≠ 0) := by
    have hlen : len = 0 ↔ len.toNat = 0 := BitVec.toNat_eq
    rw [Bool.and_eq_true, Bool.or_eq_true, hctrp, beq_iff_eq, beq_iff_eq, field_eq_div rfl, hlen]
    omega
  rw [decodeSKeyed, causeOf_unlessReserved hzero, check_sKeyed_eq]
  simp only [← field_eq_div_mod]
  refine ite_congr rfl (fun _ => rfl) fun hres => ?_
  have hctr : (if (field cmd 26 1 == 1) = true then some len.toNat else none).getD 0 = len.toNat := by
    split
    · rfl
    · next hnone =>
      rw [hctrp] at hnone
      exact (by omega : 0 = len.toNat)
  rw [hctr]

/-! ### The two sayings of R181 agree -/

theorem toNat_mod_of_opcode {cmd : Word} {opc : Byte} (h : cmd.extractLsb' 0 8 = opc) : cmd.toNat % 256 = opc.toNat :=
  (toNat_of_opcode h).symm

/-- Check 1 reads the same byte as the decoder. -/
theorem opcode_mem_of_toNat_mem {cmd : Word} {l : List Nat} (h : cmd.toNat % 256 ∈ l) :
    cmd.extractLsb' 0 8 ∈ l.map (BitVec.ofNat 8) := by
  refine List.mem_map.mpr ⟨_, h, ?_⟩
  rw [toNat_mod_of_opcode rfl, BitVec.ofNat_toNat, BitVec.setWidth_eq]

/-- Arm by arm of the decoder: with the opcode known, the conditions left of `specCheck` are the command's. -/
theorem specCheck_eq_causeOf (s : State) (cmd len : Word) :
    specCheck s cmd len s.din = causeOf (decode cmd len) s := by
  unfold decode
  split
  case h_1 h | h_2 h | h_3 h | h_6 h | h_7 h | h_14 h | h_17 h =>
    have hopc := toNat_mod_of_opcode h
    rw [causeOf_decodeN, check_eq_of_plain s rfl rfl rfl rfl]
    simp [specCheck, hopc, opcodes, opcodesN, opcodesL, dinLen, needsSponge, needsKeyed]
  case h_9 h | h_10 h | h_11 h | h_12 h | h_13 h | h_15 h | h_16 h =>
    have hopc := toNat_mod_of_opcode h
    rw [causeOf_decodeL, check_eq_of_plain s rfl rfl rfl rfl]
    simp [specCheck, hopc, opcodes, opcodesN, opcodesL, dinLen, needsSponge, needsKeyed]
  case h_4 h =>
    have hopc := toNat_mod_of_opcode h
    rw [causeOf_decodeEAdd, check_eAdd_eq]
    simp [specCheck, hopc, opcodes, opcodesN, opcodesL]
  case h_5 h =>
    have hopc := toNat_mod_of_opcode h
    rw [causeOf_decodeEExtract, check_eExtract_eq]
    simp [specCheck, hopc, opcodes, opcodesN, opcodesL]
  case h_8 h =>
    have hopc := toNat_mod_of_opcode h
    rw [causeOf_decodeSKeyed]
    simp [specCheck, hopc, opcodes, opcodesN, opcodesL]
  case h_18 =>
    have hopc : cmd.toNat % 256 ∉ opcodes := by
      intro hmem
      have hbyte := opcode_mem_of_toNat_mem hmem
      simp only [opcodes, List.map_cons, List.map_nil, List.mem_cons, List.not_mem_nil, or_false] at hbyte
      tauto
    simp [specCheck, hopc, causeOf, rejectCause]

/-! ### A transaction of a ready block (R181, R182) -/

section

variable {tr : Transaction} {s : State}

theorem specCheck_eq_causeOf_din (tr : Transaction) (s : State) :
    specCheck s tr.cmd tr.len tr.din = causeOf (decode tr.cmd tr.len) { s with din := tr.din } :=
  specCheck_eq_causeOf { s with din := tr.din } tr.cmd tr.len

theorem transact_of_reject {e : Reject} (hs : s.fault = false) (hd : decode tr.cmd tr.len = .error e) :
    transact tr s = .next (raiseFault (rejectCause e) { s with din := tr.din }) := by
  rw [transact, hd]
  simp [rejectCommand, hs]

theorem exec_faults {i : Instr} (hs : s.fault = false) (hc : check i s ≠ .none) :
    exec i s = .next (raiseFault (check i s) s) := by
  obtain ⟨f, hf⟩ := exec_eq_runCommand i s
  rw [hf, runCommand_faults hs hc]

/-- With a failing check the transaction is fault entry, with the cause found and nothing else written (R182). -/
theorem transact_faults (hs : s.fault = false) (hc : specCheck s tr.cmd tr.len tr.din ≠ .none) :
    transact tr s = .next (raiseFault (specCheck s tr.cmd tr.len tr.din) { s with din := tr.din }) := by
  rw [specCheck_eq_causeOf_din] at hc ⊢
  cases hd : decode tr.cmd tr.len with
  | ok i =>
    rw [hd] at hc
    rw [transact_of_decode hd]
    exact exec_faults hs hc
  | error e => exact transact_of_reject hs hd

/-- A transaction reports the cause found, and a fault just when there is one (R181). -/
theorem transact_cause (tr : Transaction) (hs : s.Ready) :
    ∃ t, transact tr s = .next t ∧ t.cause = specCheck s tr.cmd tr.len tr.din ∧
      (t.fault = true ↔ specCheck s tr.cmd tr.len tr.din ≠ .none) := by
  rw [specCheck_eq_causeOf_din]
  cases hd : decode tr.cmd tr.len with
  | ok i =>
    rw [transact_of_decode hd]
    exact exec_cause i hs
  | error e =>
    obtain ⟨hfault, -⟩ := hs
    exact ⟨_, transact_of_reject hfault hd, rfl, iff_of_true rfl (rejectCause_ne_none e)⟩

end

/-- Settles O13: the step reports the decoder's and the frame's first failing check, which is `specCheck`'s. -/
theorem causeIsTheFirstFailingCheck : Obligations.CauseIsTheFirstFailingCheck := by
  intro s tr rest hs hp
  rw [step_issue hp]
  exact transact_cause (s := { s with pending := rest }) tr hs

/-- Settles O14: a failing check ends in `raiseFault`, which writes FAULT and CAUSE alone. -/
theorem faultEntryIsPrecise : Obligations.FaultEntryIsPrecise := by
  rintro s tr rest c ⟨hs, -⟩ hp rfl hc
  rw [step_issue hp]
  exact transact_faults (s := { s with pending := rest }) hs hc

/-! ### A transaction of a faulted block (R183) -/

/-- A transaction that is no register read without DIN is refused. -/
theorem transact_refuses {tr : Transaction} {s : State} (hs : s.fault = true)
    (hread : ∀ i, decode tr.cmd tr.len = .ok i → isRegisterRead i = true → tr.din ≠ []) :
    transact tr s = .next (refuse { s with din := tr.din }) := by
  cases hd : decode tr.cmd tr.len with
  | ok i =>
    obtain ⟨f, hf⟩ := exec_eq_runCommand i { s with din := tr.din }
    rw [transact_of_decode hd, hf]
    refine runCommand_refuses hs ?_
    cases hi : isRegisterRead i with
    | false => exact .inl rfl
    | true => exact .inr (hread i hd hi)
  | error e =>
    rw [transact, hd]
    simp [rejectCommand, hs]

/-- The words of a register read (R170, R171). -/
theorem words_of_registerRead {cmd len : Word} {i : Instr} (hd : decode cmd len = .ok i)
    (hi : isRegisterRead i = true) : len = 0 ∧ (cmd = 0x00000001 ∨ cmd = 0x00000002) := by
  obtain ⟨-, henc⟩ := encodes_of_decode hd
  cases i with
  | rdStatus | rdConfig => cases henc; decide
  | _ => cases hi

/-- Settles O15: a register read without DIN answers, and `refuse` is the answer to every other transaction. -/
theorem faultedBlockOnlyReadsRegisters : Obligations.FaultedBlockOnlyReadsRegisters := by
  intro s tr rest hs hp
  rw [step_issue hp]
  split_ifs with hstatus hconfig
  · obtain ⟨hlen, hdin, hcmd⟩ := hstatus
    have hd : decode tr.cmd tr.len = .ok .rdStatus := by rw [hcmd, hlen]; rfl
    rw [transact_of_decode hd, exec_rdStatus hdin, respond, wordBytes_eq]
    rfl
  · obtain ⟨hlen, hdin, hcmd⟩ := hconfig
    have hd : decode tr.cmd tr.len = .ok .rdConfig := by rw [hcmd, hlen]; rfl
    rw [transact_of_decode hd, exec_rdConfig hdin, respond, wordBytes_eq]
    rfl
  · refine transact_refuses (s := { s with pending := rest }) hs fun i hd hi hdin => ?_
    obtain ⟨hlen, hcmd | hcmd⟩ := words_of_registerRead hd hi
    · exact hstatus ⟨hlen, hdin, hcmd⟩
    · exact hconfig ⟨hlen, hdin, hcmd⟩

end Sys2Proof.Machine

/-! PROOFS of the reset family (spec/70_reset_and_hazards.md). A reset action is one step, `step_reset`, whatever the block
held; what it leaves is the block's `doReset`. -/

namespace Sys2Proof.Machine

/-- Reset is one action of the host, performed in one step (R68, R200). -/
theorem step_reset {s : State} {rest : List HostAction} (h : s.pending = .reset :: rest) :
    step s = .next (State.doReset { s with pending := rest }) := by
  rw [step, takeAction, h]

/-- Settles O8: the step is `doReset`, which builds its state from R22's values, N, R and the later actions alone. -/
theorem resetClearsEverything : Obligations.ResetClearsEverything := by
  intro s rest hp
  rw [step_reset hp, State.doReset, State.afterReset]
  rfl

end Sys2Proof.Machine
